-- ==== Sys2Proof/Word.lean ====
section
/-! DEFINITION. The word types of the machine (00_scope.md R7, R10, R11): everything is unsigned, bit 0 is the least
significant bit. -/

namespace Sys2Proof

/-- A memory byte or the contents of a general register (R20, R60). -/
abbrev Byte := BitVec 8

/-- An instruction word, the index register, the program counter or a stack entry (R29, R32, R37, R90). -/
abbrev Word := BitVec 16

/-- "A 4-bit field of an opcode" (R18). -/
abbrev Nibble := BitVec 4

/-- A general register's number, 0..15 (R20, R21). -/
abbrev Reg := Fin 16

end Sys2Proof
end

