-- ==== Sys2Proof/Syntax.lean ====
section
/-! DEFINITION. The decoded form of an instruction (30_encoding.md R104): one constructor per row of the opcode map R97,
carrying exactly the fields of its format, and one for the unrecognised words. -/

namespace Sys2Proof

/-- The instructions, in the order of the opcode map (R97). The shifts keep the ignored field `Y` (R99, R104). -/
inductive Instr where
  /-- `00E0` -/
  | cls
  /-- `00EE` -/
  | ret
  /-- `1NNN` -/
  | jp (nnn : BitVec 12)
  /-- `2NNN` -/
  | call (nnn : BitVec 12)
  /-- `3XNN` -/
  | seImm (x : Reg) (nn : Byte)
  /-- `4XNN` -/
  | sneImm (x : Reg) (nn : Byte)
  /-- `5XY0` -/
  | seReg (x y : Reg)
  /-- `6XNN` -/
  | ldImm (x : Reg) (nn : Byte)
  /-- `7XNN` -/
  | addImm (x : Reg) (nn : Byte)
  /-- `8XY0` -/
  | ldReg (x y : Reg)
  /-- `8XY1` -/
  | orReg (x y : Reg)
  /-- `8XY2` -/
  | andReg (x y : Reg)
  /-- `8XY3` -/
  | xorReg (x y : Reg)
  /-- `8XY4` -/
  | addReg (x y : Reg)
  /-- `8XY5` -/
  | subReg (x y : Reg)
  /-- `8XY6` -/
  | shr (x y : Reg)
  /-- `8XY7` -/
  | subn (x y : Reg)
  /-- `8XYE` -/
  | shl (x y : Reg)
  /-- `9XY0` -/
  | sneReg (x y : Reg)
  /-- `ANNN` -/
  | ldI (nnn : BitVec 12)
  /-- `BNNN` -/
  | jpV0 (nnn : BitVec 12)
  /-- `CXNN` -/
  | rnd (x : Reg) (nn : Byte)
  /-- `DXYN` -/
  | drw (x y : Reg) (n : Nibble)
  /-- `EX9E` -/
  | skp (x : Reg)
  /-- `EXA1` -/
  | sknp (x : Reg)
  /-- `FX07` -/
  | ldVxDt (x : Reg)
  /-- `FX0A` -/
  | ldVxK (x : Reg)
  /-- `FX15` -/
  | ldDtVx (x : Reg)
  /-- `FX18` -/
  | ldStVx (x : Reg)
  /-- `FX1E` -/
  | addI (x : Reg)
  /-- `FX29` -/
  | ldF (x : Reg)
  /-- `FX33` -/
  | ldB (x : Reg)
  /-- `FX55` -/
  | ldMemVx (x : Reg)
  /-- `FX65` -/
  | ldVxMem (x : Reg)
  /-- A word that matches none of the 34 patterns, carried raw (R101). -/
  | unrec (w : Word)
  deriving DecidableEq, Repr

end Sys2Proof
end

