-- ==== Sys2Proof/WellFormed.lean ====
section
/-! DEFINITION. The opcode map as masks and patterns (30_encoding.md R97, opcode_table.json), and when an instruction is
well formed: every field's range is its type's, and an unrecognised word is one that no row of the map matches (R100). -/

namespace Sys2Proof

/-- One row of the opcode map: word `w` is this instruction iff `w AND mask = pattern` (R94, R97). -/
structure Row where
  mnemonic : String
  mask : Word
  pattern : Word
  deriving DecidableEq, Repr

/-- `w AND mask = match` (R94). -/
def Row.hits (r : Row) (w : Word) : Bool := w &&& r.mask == r.pattern

/-- Classes 0 to 8 of the opcode map (R97, rows 1 to 18). -/
def opcodeRowsLow : List Row := [
  ⟨"CLS", 0xffff#16, 0x00e0#16⟩,
  ⟨"RET", 0xffff#16, 0x00ee#16⟩,
  ⟨"JP_NNN", 0xf000#16, 0x1000#16⟩,
  ⟨"CALL_NNN", 0xf000#16, 0x2000#16⟩,
  ⟨"SE_Vx__NN", 0xf000#16, 0x3000#16⟩,
  ⟨"SNE_Vx__NN", 0xf000#16, 0x4000#16⟩,
  ⟨"SE_Vx__Vy", 0xf00f#16, 0x5000#16⟩,
  ⟨"LD_Vx__NN", 0xf000#16, 0x6000#16⟩,
  ⟨"ADD_Vx__NN", 0xf000#16, 0x7000#16⟩,
  ⟨"LD_Vx__Vy", 0xf00f#16, 0x8000#16⟩,
  ⟨"OR_Vx__Vy", 0xf00f#16, 0x8001#16⟩,
  ⟨"AND_Vx__Vy", 0xf00f#16, 0x8002#16⟩,
  ⟨"XOR_Vx__Vy", 0xf00f#16, 0x8003#16⟩,
  ⟨"ADD_Vx__Vy", 0xf00f#16, 0x8004#16⟩,
  ⟨"SUB_Vx__Vy", 0xf00f#16, 0x8005#16⟩,
  ⟨"SHR_Vx", 0xf00f#16, 0x8006#16⟩,
  ⟨"SUBN_Vx__Vy", 0xf00f#16, 0x8007#16⟩,
  ⟨"SHL_Vx", 0xf00f#16, 0x800e#16⟩]

/-- Classes 9 to F of the opcode map (R97, rows 19 to 34). -/
def opcodeRowsHigh : List Row := [
  ⟨"SNE_Vx__Vy", 0xf00f#16, 0x9000#16⟩,
  ⟨"LD_I__NNN", 0xf000#16, 0xa000#16⟩,
  ⟨"JP_V0__NNN", 0xf000#16, 0xb000#16⟩,
  ⟨"RND_Vx__NN", 0xf000#16, 0xc000#16⟩,
  ⟨"DRW_Vx__Vy__N", 0xf000#16, 0xd000#16⟩,
  ⟨"SKP_Vx", 0xf0ff#16, 0xe09e#16⟩,
  ⟨"SKNP_Vx", 0xf0ff#16, 0xe0a1#16⟩,
  ⟨"LD_Vx__DT", 0xf0ff#16, 0xf007#16⟩,
  ⟨"LD_Vx__K", 0xf0ff#16, 0xf00a#16⟩,
  ⟨"LD_DT__Vx", 0xf0ff#16, 0xf015#16⟩,
  ⟨"LD_ST__Vx", 0xf0ff#16, 0xf018#16⟩,
  ⟨"ADD_I__Vx", 0xf0ff#16, 0xf01e#16⟩,
  ⟨"LD_F__Vx", 0xf0ff#16, 0xf029#16⟩,
  ⟨"LD_B__Vx", 0xf0ff#16, 0xf033#16⟩,
  ⟨"LD__I___Vx", 0xf0ff#16, 0xf055#16⟩,
  ⟨"LD_Vx___I", 0xf0ff#16, 0xf065#16⟩]

/-- The 34 rows of the opcode map, in its order (R97). -/
def opcodeRows : List Row := opcodeRowsLow ++ opcodeRowsHigh

/-- Whether some row of the opcode map matches the word; every other word is unrecognised (R94). -/
def recognised (w : Word) : Bool := opcodeRows.any fun r => r.hits w

/-- The place of an instruction's row in `opcodeRows`; the unrecognised words have none. -/
def Instr.rowIndex : Instr → Option Nat
  | .cls => some 0
  | .ret => some 1
  | .jp _ => some 2
  | .call _ => some 3
  | .seImm _ _ => some 4
  | .sneImm _ _ => some 5
  | .seReg _ _ => some 6
  | .ldImm _ _ => some 7
  | .addImm _ _ => some 8
  | .ldReg _ _ => some 9
  | .orReg _ _ => some 10
  | .andReg _ _ => some 11
  | .xorReg _ _ => some 12
  | .addReg _ _ => some 13
  | .subReg _ _ => some 14
  | .shr _ _ => some 15
  | .subn _ _ => some 16
  | .shl _ _ => some 17
  | .sneReg _ _ => some 18
  | .ldI _ => some 19
  | .jpV0 _ => some 20
  | .rnd _ _ => some 21
  | .drw _ _ _ => some 22
  | .skp _ => some 23
  | .sknp _ => some 24
  | .ldVxDt _ => some 25
  | .ldVxK _ => some 26
  | .ldDtVx _ => some 27
  | .ldStVx _ => some 28
  | .addI _ => some 29
  | .ldF _ => some 30
  | .ldB _ => some 31
  | .ldMemVx _ => some 32
  | .ldVxMem _ => some 33
  | .unrec _ => none

/-- The row of the opcode map an instruction belongs to. -/
def Instr.row (i : Instr) : Option Row := i.rowIndex.bind fun k => opcodeRows[k]?

/-- The check: the fields of a recognised instruction range over their whole types (R92, R103); an `unrec` must carry a
word that no row matches, or it would be a second spelling of an instruction (R101, R104). -/
def Instr.wellFormed : Instr → Bool
  | .cls | .ret | .jp _ | .call _ | .seImm _ _ | .sneImm _ _ | .seReg _ _ | .ldImm _ _ | .addImm _ _ => true
  | .ldReg _ _ | .orReg _ _ | .andReg _ _ | .xorReg _ _ | .addReg _ _ | .subReg _ _ => true
  | .shr _ _ | .subn _ _ | .shl _ _ | .sneReg _ _ | .ldI _ | .jpV0 _ | .rnd _ _ | .drw _ _ _ => true
  | .skp _ | .sknp _ | .ldVxDt _ | .ldVxK _ | .ldDtVx _ | .ldStVx _ | .addI _ | .ldF _ => true
  | .ldB _ | .ldMemVx _ | .ldVxMem _ => true
  | .unrec w => !recognised w

/-- The instruction passes the check. -/
abbrev Instr.WellFormed (i : Instr) : Prop := i.wellFormed = true

end Sys2Proof
end

