-- ==== Sys2Proof/Decode.lean ====
section
/-! DEFINITION. The decoder (30_encoding.md R90–R102), total on all 65536 words, and the encoder, from the same
encoding tables. -/

namespace Sys2Proof

/-! ## Fields (R91, R92) -/

/-- `class = w[15:12]`, one of sixteen classes. -/
def fieldClass (w : Word) : Fin 16 := (w.extractLsb' 12 4).toFin

/-- `X = w[11:8]`, a register number. -/
def fieldX (w : Word) : Reg := (w.extractLsb' 8 4).toFin

/-- `Y = w[7:4]`, a register number. -/
def fieldY (w : Word) : Reg := (w.extractLsb' 4 4).toFin

/-- `N = w[3:0]`. -/
def fieldN (w : Word) : Nibble := w.extractLsb' 0 4

/-- `NN = w[7:0]`. -/
def fieldNN (w : Word) : Byte := w.extractLsb' 0 8

/-- `NNN = w[11:0]`. -/
def fieldNNN (w : Word) : BitVec 12 := w.extractLsb' 0 12

/-! ## Dispatch (R94–R96): class 0 on the whole word, classes 5, 8 and 9 on `N`, classes E and F on `NN` -/

/-- Class 0: only the whole words 0x00E0 and 0x00EE are instructions (R96). -/
def decodeClass0 (w : Word) : Instr :=
  if w = 0x00E0#16 then .cls
  else if w = 0x00EE#16 then .ret
  else .unrec w

/-- Class 8: the low nibble is the secondary opcode (R94, R97 rows 10 to 18). -/
def decodeClass8 (w : Word) : Instr :=
  if fieldN w = 0x0#4 then .ldReg (fieldX w) (fieldY w)
  else if fieldN w = 0x1#4 then .orReg (fieldX w) (fieldY w)
  else if fieldN w = 0x2#4 then .andReg (fieldX w) (fieldY w)
  else if fieldN w = 0x3#4 then .xorReg (fieldX w) (fieldY w)
  else if fieldN w = 0x4#4 then .addReg (fieldX w) (fieldY w)
  else if fieldN w = 0x5#4 then .subReg (fieldX w) (fieldY w)
  else if fieldN w = 0x6#4 then .shr (fieldX w) (fieldY w)
  else if fieldN w = 0x7#4 then .subn (fieldX w) (fieldY w)
  else if fieldN w = 0xE#4 then .shl (fieldX w) (fieldY w)
  else .unrec w

/-- Class E: the low byte is the secondary opcode (R94, R97 rows 24 and 25). -/
def decodeClassE (w : Word) : Instr :=
  if fieldNN w = 0x9E#8 then .skp (fieldX w)
  else if fieldNN w = 0xA1#8 then .sknp (fieldX w)
  else .unrec w

/-- Class F: the low byte is the secondary opcode (R94, R97 rows 26 to 34). -/
def decodeClassF (w : Word) : Instr :=
  if fieldNN w = 0x07#8 then .ldVxDt (fieldX w)
  else if fieldNN w = 0x0A#8 then .ldVxK (fieldX w)
  else if fieldNN w = 0x15#8 then .ldDtVx (fieldX w)
  else if fieldNN w = 0x18#8 then .ldStVx (fieldX w)
  else if fieldNN w = 0x1E#8 then .addI (fieldX w)
  else if fieldNN w = 0x29#8 then .ldF (fieldX w)
  else if fieldNN w = 0x33#8 then .ldB (fieldX w)
  else if fieldNN w = 0x55#8 then .ldMemVx (fieldX w)
  else if fieldNN w = 0x65#8 then .ldVxMem (fieldX w)
  else .unrec w

/-- The instruction of a 16-bit word (R94, R97). Total: every word of no pattern is `unrec` (R100). Classes 5 and 9 also
fix their low nibble at 0 (R95). -/
def decodeWord (w : Word) : Instr :=
  match fieldClass w with
  | 0x0 => decodeClass0 w
  | 0x1 => .jp (fieldNNN w)
  | 0x2 => .call (fieldNNN w)
  | 0x3 => .seImm (fieldX w) (fieldNN w)
  | 0x4 => .sneImm (fieldX w) (fieldNN w)
  | 0x5 => if fieldN w = 0x0#4 then .seReg (fieldX w) (fieldY w) else .unrec w
  | 0x6 => .ldImm (fieldX w) (fieldNN w)
  | 0x7 => .addImm (fieldX w) (fieldNN w)
  | 0x8 => decodeClass8 w
  | 0x9 => if fieldN w = 0x0#4 then .sneReg (fieldX w) (fieldY w) else .unrec w
  | 0xA => .ldI (fieldNNN w)
  | 0xB => .jpV0 (fieldNNN w)
  | 0xC => .rnd (fieldX w) (fieldNN w)
  | 0xD => .drw (fieldX w) (fieldY w) (fieldN w)
  | 0xE => decodeClassE w
  | _ => decodeClassF w -- class F, the one class left

/-! ## Bytes -/

/-- Two bytes as a big-endian word: the byte at the lower address holds bits 15:8 (20_memory.md R69). -/
def wordOfBytes (hi lo : Byte) : Word := hi ++ lo

/-- Bits 15:8 of a word, the byte stored at the lower address (R69). -/
def highByte (w : Word) : Byte := w.extractLsb' 8 8

/-- Bits 7:0 of a word, the byte stored at the higher address (R69). -/
def lowByte (w : Word) : Byte := w.extractLsb' 0 8

/-- Why a byte sequence holds no instruction. -/
inductive DecodeError where
  /-- Fewer than the two bytes every instruction has (R90). Raised by `decode` alone; the machine always fetches two. -/
  | truncated
  deriving DecidableEq, Repr

/-- Decodes the instruction at the front of a byte sequence and gives the bytes that follow it (R69, R90). -/
def decode : List Byte → Except DecodeError (Instr × List Byte)
  | hi :: lo :: rest => .ok (decodeWord (wordOfBytes hi lo), rest)
  | [_] => .error .truncated
  | [] => .error .truncated

/-- What the decoder reads from the instruction whose bits are `w`, `nbits` of them given and the rest 0: its word is
laid out as memory holds it, high byte first (R69), and handed to `decode`. More than one word's bits are no single
instruction of this machine (R90). -/
def decodeTableWord (nbits w : Nat) : Option Instr :=
  if nbits ≤ 16 then
    let word : Word := BitVec.ofNat 16 (w % 2 ^ nbits)
    match decode [highByte word, lowByte word] with
    | .ok (i, _) => some i
    | .error _ => none
  else none

/-! ## Encoder -/

/-- The word of format `A` (R93): the class in bits 15:12, `NNN` in bits 11:0. -/
def wordA (c : Fin 16) (nnn : BitVec 12) : Word := BitVec.ofNat 16 (c * 0x1000 + nnn.toNat)

/-- The word of format `XK`, and of format `XS` with its secondary opcode as `nn` (R93). -/
def wordXK (c : Fin 16) (x : Reg) (nn : Byte) : Word := BitVec.ofNat 16 (c * 0x1000 + x * 0x100 + nn.toNat)

/-- The word of format `XYN`, and of format `XY` with its secondary opcode as `n` (R93). -/
def wordXYN (c : Fin 16) (x y : Reg) (n : Nibble) : Word :=
  BitVec.ofNat 16 (c * 0x1000 + x * 0x100 + y * 0x10 + n.toNat)

/-- The word of an instruction (R93, R97). -/
def encode : Instr → Word
  | .cls => 0x00E0#16
  | .ret => 0x00EE#16
  | .jp nnn => wordA 0x1 nnn
  | .call nnn => wordA 0x2 nnn
  | .seImm x nn => wordXK 0x3 x nn
  | .sneImm x nn => wordXK 0x4 x nn
  | .seReg x y => wordXYN 0x5 x y 0x0#4
  | .ldImm x nn => wordXK 0x6 x nn
  | .addImm x nn => wordXK 0x7 x nn
  | .ldReg x y => wordXYN 0x8 x y 0x0#4
  | .orReg x y => wordXYN 0x8 x y 0x1#4
  | .andReg x y => wordXYN 0x8 x y 0x2#4
  | .xorReg x y => wordXYN 0x8 x y 0x3#4
  | .addReg x y => wordXYN 0x8 x y 0x4#4
  | .subReg x y => wordXYN 0x8 x y 0x5#4
  | .shr x y => wordXYN 0x8 x y 0x6#4
  | .subn x y => wordXYN 0x8 x y 0x7#4
  | .shl x y => wordXYN 0x8 x y 0xE#4
  | .sneReg x y => wordXYN 0x9 x y 0x0#4
  | .ldI nnn => wordA 0xA nnn
  | .jpV0 nnn => wordA 0xB nnn
  | .rnd x nn => wordXK 0xC x nn
  | .drw x y n => wordXYN 0xD x y n
  | .skp x => wordXK 0xE x 0x9E#8
  | .sknp x => wordXK 0xE x 0xA1#8
  | .ldVxDt x => wordXK 0xF x 0x07#8
  | .ldVxK x => wordXK 0xF x 0x0A#8
  | .ldDtVx x => wordXK 0xF x 0x15#8
  | .ldStVx x => wordXK 0xF x 0x18#8
  | .addI x => wordXK 0xF x 0x1E#8
  | .ldF x => wordXK 0xF x 0x29#8
  | .ldB x => wordXK 0xF x 0x33#8
  | .ldMemVx x => wordXK 0xF x 0x55#8
  | .ldVxMem x => wordXK 0xF x 0x65#8
  | .unrec w => w

/-- The two bytes of an instruction as memory holds them (R69). -/
def encodeBytes (i : Instr) : List Byte := [highByte (encode i), lowByte (encode i)]

end Sys2Proof
end

