-- ==== Sys2Proof/Config.lean ====
section
/-! DEFINITION. What is fixed for the machine, and its one free value. -/

namespace Sys2Proof.Config

/-- The `rnd` input of the n-th draw (00_scope.md R8, 42_alu.md R173, 60_exceptions.md R261): "a free draw under no
law". It has no body, so nothing can be proved of its value. Log entry 2. -/
opaque rnd : Nat → Byte

/-- `FONT_BASE` (R7). -/
def fontBase : Nat := 0x050

/-- `PROG_BASE`, the program load address and the entry point (R7, R64). -/
def progBase : Nat := 0x200

/-- The number of bytes of memory (R7, R60). -/
def memSize : Nat := 4096

/-- The longest program image, 4096 − 0x200 (R7, R282). -/
def maxImage : Nat := 3584

end Sys2Proof.Config
end

