-- ==== Sys2Proof/Machine/Font.lean ====
section
/-! DEFINITION. The default value the spec lists for its parameter `FONT` (70_reset_and_hazards.md R283, marked there as
general knowledge; PRESUMED, unsafe for a claim about the shape of a glyph, log entry 1). -/

namespace Sys2Proof.Machine

/-- Glyphs 0 to 7 of the default font, 5 bytes each, row 0 first (R283). -/
def fontGlyphs0to7 : List Byte := [
  0xF0, 0x90, 0x90, 0x90, 0xF0,
  0x20, 0x60, 0x20, 0x20, 0x70,
  0xF0, 0x10, 0xF0, 0x80, 0xF0,
  0xF0, 0x10, 0xF0, 0x10, 0xF0,
  0x90, 0x90, 0xF0, 0x10, 0x10,
  0xF0, 0x80, 0xF0, 0x10, 0xF0,
  0xF0, 0x80, 0xF0, 0x90, 0xF0,
  0xF0, 0x10, 0x20, 0x40, 0x40]

/-- Glyphs 8 to F of the default font (R283). -/
def fontGlyphs8toF : List Byte := [
  0xF0, 0x90, 0xF0, 0x90, 0xF0,
  0xF0, 0x90, 0xF0, 0x10, 0xF0,
  0xF0, 0x90, 0xF0, 0x90, 0x90,
  0xE0, 0x90, 0xE0, 0x90, 0xE0,
  0xF0, 0x80, 0x80, 0x80, 0xF0,
  0xE0, 0x90, 0x90, 0x90, 0xE0,
  0xF0, 0x80, 0xF0, 0x80, 0xF0,
  0xF0, 0x80, 0xF0, 0x80, 0x80]

/-- The 80 bytes of the default font, glyph `d` at offset `5 d` (R283). -/
def defaultFont : Vector Byte 80 :=
  Vector.ofFn fun j => (fontGlyphs0to7 ++ fontGlyphs8toF).getD j.val 0

end Sys2Proof.Machine
end

