-- ==== Sys2Proof/Machine/State.lean ====
section
/-! DEFINITION. The state of the core (10_state.md R47), the commands of its host (00_scope.md R16), its faults
(60_exceptions.md R240, R241), and the state after reset (70_reset_and_hazards.md R285). -/

namespace Sys2Proof.Machine

/-- The display: 32 rows of 64 one-bit cells (R42, R200). A row is 64 bits, column 0, the leftmost, its most significant
bit, as the most significant bit of a sprite byte is its leftmost column (R200); 1 is foreground. -/
abbrev Display := Vector (BitVec 64) 32

/-- What the host can put on the command port, with the ports each command reads (R16, R262). -/
inductive Command where
  /-- NONE: "a core that receives no command simply holds its state" (R265). -/
  | idle
  /-- RESET(ROM) with the image on the `rom` port (R281). -/
  | reset (rom : List Byte)
  /-- STEP (R120). -/
  | step
  /-- TICK (R252). -/
  | tick
  /-- SETKEY(k, p): the index port is 4 bits wide, so no index is out of range (R256). -/
  | setKey (k : Fin 16) (pressed : Bool)
  deriving DecidableEq, Repr

/-- The state of the core. The first eleven fields are R47's components, one each. -/
@[ext]
structure State where
  /-- `MEM` (R60): the cells that differ from what RESET of an empty image leaves, in the canonical form `Mem.wf`. -/
  mem : List Host.Cell
  /-- `V[0..15]`; `V[15]` is `VF` (R20, R24). -/
  v : Vector Byte 16
  /-- `I` (R29). -/
  i : Word
  /-- `pc` (R32). -/
  pc : Word
  /-- `SP`, "5 bits holding 0..16": the number of stack entries in use (R9, R37). -/
  sp : Fin 17
  /-- `STK[0..15]` (R37). -/
  stk : Vector Word 16
  /-- `DT` (R41). -/
  dt : Byte
  /-- `ST` (R41). -/
  st : Byte
  /-- `DISP` (R42). -/
  disp : Display
  /-- `KEY[0..15]` (R43). -/
  key : Vector Bool 16
  /-- `FAULT`, 2 bits (R45): 0 none, else the code of a `Fault`. -/
  fault : BitVec 2
  /-- The model's own field: the value of the parameter `FONT` (R8, R283), which no transition writes.
  PRESUMED at reset, unsafe for the shape of a glyph, log entry 1. -/
  font : Vector Byte 80
  /-- The model's own field: how many random bytes have been drawn (R261). DESIGN CHOICE, safe, log entry 2. -/
  draws : Nat
  /-- The model's own field: the commands on the port that the core has not taken yet, the next first (R16). With none
  listed the next command is STEP. DESIGN CHOICE, unsafe for a claim about one run, log entry 3. -/
  cmds : List Command
  deriving DecidableEq, Repr

/-- The core's faults (R240, R241). The spec gives their entry (R244), so an instruction that raises one TAKES it: the
answer is a next state with `FAULT` latched, never `Outcome.fault`. Safe: no step of this model ends in a fault. -/
inductive Fault where
  /-- Raised by the instruction fetch, `DXYN`, `FX33`, `FX55`, `FX65` on an address above 4095 (R66, R241). Safe: the
  machine halts as R247 says. -/
  | addressOutOfRange
  /-- Raised by `2NNN` with 16 entries in use (R142, R241). Safe: the machine halts as R247 says. -/
  | stackOverflow
  /-- Raised by `00EE` with an empty stack (R140, R241). Safe: the machine halts as R247 says. -/
  | stackUnderflow
  deriving DecidableEq, Repr

/-- Why a step would have no meaning. -/
inductive Refusal where
  /-- An instruction without a meaning yet, raised by its arm of `exec` alone. No arm raises it: every instruction has
  its meaning. Safe: it would stop the run. -/
  | notModelled (mnemonic : String)
  deriving DecidableEq, Repr

/-- The answer of a meaning, of a command and of a step. -/
abbrev Result := Host.Outcome State Fault Refusal

/-- The machine right after RESET with an empty image (R281, R285), with the default font (log entry 1), no random byte
drawn and no command listed (log entries 2, 3). -/
def State.reset : State where
  mem := []
  v := Vector.replicate 16 0
  i := 0
  pc := 0x200
  sp := 0
  stk := Vector.replicate 16 0
  dt := 0
  st := 0
  disp := Vector.replicate 32 0
  key := Vector.replicate 16 false
  fault := 0
  font := defaultFont
  draws := 0
  cmds := []

end Sys2Proof.Machine
end

