-- ==== Sys2Proof/Machine/Ops.lean ====
section
/-! DEFINITION. The named operations over memory, registers and stack, and the one operation that takes a fault. -/

namespace Sys2Proof.Machine

/-! ## Memory (20_memory.md) -/

/-- What an address that no cell lists reads as: the contents RESET gives it before the image is copied in, `FONT` in
0x050..0x09F and zero elsewhere (R63, R281). -/
def Mem.background (font : Vector Byte 80) (a : Nat) : Byte :=
  if h : Config.fontBase ≤ a ∧ a < Config.fontBase + 80 then
    font[a - Config.fontBase]'(Nat.sub_lt_left_of_lt_add h.1 h.2)
  else 0

/-- The byte a list of cells holds at an address. -/
def Mem.read (font : Vector Byte 80) : List Host.Cell → Nat → Byte
  | [], a => Mem.background font a
  | (b, u) :: rest, a => if a = b then u else Mem.read font rest a

/-- Writes one byte and keeps the canonical form: a value the address reads as when unlisted is not listed. -/
def Mem.write (font : Vector Byte 80) : List Host.Cell → Nat → Byte → List Host.Cell
  | [], a, u => if u = Mem.background font a then [] else [(a, u)]
  | (b, w) :: rest, a, u =>
    if a < b then
      if u = Mem.background font a then (b, w) :: rest else (a, u) :: (b, w) :: rest
    else if a = b then
      if u = Mem.background font a then rest else (a, u) :: rest
    else (b, w) :: Mem.write font rest a u

/-- Writes consecutive bytes, the first at the lowest address, in ascending order (R185). -/
def Mem.writeBytes (font : Vector Byte 80) (m : List Host.Cell) (a : Nat) : List Byte → List Host.Cell
  | [] => m
  | u :: us => Mem.writeBytes font (Mem.write font m a u) (a + 1) us

/-- The cells of a memory in which RESET has just placed an image: byte `j` at `a + j`, every other address as RESET
leaves it (R81, R281). -/
def Mem.ofImage (font : Vector Byte 80) (a : Nat) : List Byte → List Host.Cell
  | [] => []
  | u :: us => if u = Mem.background font a then Mem.ofImage font (a + 1) us else (a, u) :: Mem.ofImage font (a + 1) us

/-- The canonical form: addresses strictly rising, all of them in the address space, no cell equal to what its address
reads as when unlisted. -/
abbrev Mem.wf (font : Vector Byte 80) (m : List Host.Cell) : Prop :=
  m.Pairwise (fun c d => c.1 < d.1) ∧ ∀ c ∈ m, c.1 < Config.memSize ∧ c.2 ≠ Mem.background font c.1

/-- `MEM[a]` (R47). -/
def State.byteAt (s : State) (a : Nat) : Byte := Mem.read s.font s.mem a

/-- Stores consecutive bytes from address `a` up (R72). -/
def State.storeBytes (s : State) (a : Nat) (us : List Byte) : State :=
  { s with mem := Mem.writeBytes s.font s.mem a us }

/-- Whether `n` bytes from `a` up all lie in memory, in unbounded arithmetic (R66, R67, R68). No byte is always in
range. -/
def inRange (a n : Nat) : Bool := n == 0 || a + n - 1 ≤ 4095

/-! ## Faults (60_exceptions.md) -/

/-- The 2-bit code of a fault (R45, R241). -/
def Fault.code : Fault → BitVec 2
  | .addressOutOfRange => 1
  | .stackOverflow => 2
  | .stackUnderflow => 3

/-- `raise F` (R14, R244): `FAULT` takes the code and the STEP ends. `s` is the state the execute stage began in, so every
write the instruction would have made is discarded and `pc` stays pre-incremented; for a fetch fault it is the state
before the STEP. Nothing is saved and control goes nowhere; no instruction returns from it (R249). -/
def raise (f : Fault) (s : State) : Result := .next { s with fault := f.code }

/-- `halted = (FAULT != 0)` (R260). -/
def State.halted (s : State) : Bool := s.fault != 0

/-- Checks the whole range `a .. a + n − 1` before anything is written (R68): runs `go` if it lies in memory, else
raises `AddressOutOfRange`. -/
def State.guardRange (s : State) (a n : Nat) (go : Result) : Result :=
  if inRange a n then go else raise .addressOutOfRange s

/-! ## Registers (10_state.md) -/

/-- The number of the flag register `VF` (R20, R24). -/
def vf : Reg := 15

/-- The contents of `V[r]`. -/
def State.reg (s : State) (r : Reg) : Byte := s.v[r]

/-- `V[r] <- b`. -/
def State.setReg (s : State) (r : Reg) (b : Byte) : State := { s with v := s.v.set r b }

/-- `V[0..last] <- f 0 .. f last`, the registers above `last` unchanged (R186). -/
def State.setRegsUpTo (s : State) (last : Reg) (f : Reg → Byte) : State :=
  { s with v := Vector.ofFn fun r => if r ≤ last then f r else s.reg r }

/-- The contents of `V[0]..V[last]`, `V[0]` first (R185). -/
def State.regsUpTo (s : State) (last : Reg) : List Byte :=
  (List.finRange (last.val + 1)).map fun r => s.reg ⟨r.val, by omega⟩

/-- `I <- a`. -/
def State.setI (s : State) (a : Word) : State := { s with i := a }

/-- `pc <- a`. -/
def State.setPc (s : State) (a : Word) : State := { s with pc := a }

/-- `DT <- b`. -/
def State.setDt (s : State) (b : Byte) : State := { s with dt := b }

/-- `ST <- b`. -/
def State.setSt (s : State) (b : Byte) : State := { s with st := b }

/-- `DISP <- d`. -/
def State.setDisp (s : State) (d : Display) : State := { s with disp := d }

/-- `KEY[k] <- p` (R256). -/
def State.setKey (s : State) (k : Fin 16) (p : Bool) : State := { s with key := s.key.set k p }

/-- `pc <- (pc + 2) mod 65536`: the pre-increment (R122) and the skip (R149). -/
def State.advance (s : State) : State := s.setPc (s.pc + 2)

/-- "if the condition holds, pc <- (pc + 2) mod 65536" (R149). -/
def State.skipIf (s : State) (c : Bool) : State := if c then s.advance else s

/-- The random byte of this draw, and the state with the draw counted (R173, R261). -/
def State.draw (s : State) : Byte × State := (Config.rnd s.draws, { s with draws := s.draws + 1 })

/-! ## Stack (10_state.md R37, R38) -/

/-- The state with `w` stored at `STK[SP]` and `SP` incremented, or the overflow fault (R38, R142). -/
def State.push (s : State) (w : Word) : Except Fault State :=
  if h : s.sp.val < 16 then
    .ok { s with stk := s.stk.set s.sp.val w h, sp := ⟨s.sp.val + 1, by omega⟩ }
  else .error .stackOverflow

/-- `SP` decremented and the entry it then names, which keeps its value, or the underflow fault (R38, R140). -/
def State.pop (s : State) : Except Fault (Word × State) :=
  if h : 0 < s.sp.val then
    .ok (s.stk[s.sp.val - 1]'(by omega), { s with sp := ⟨s.sp.val - 1, by omega⟩ })
  else .error .stackUnderflow

/-! ## Fetch (40_step_pipeline.md) -/

/-- The two bytes at `pc` and `pc + 1` as a big-endian word, or the fetch fault "if pc+1 >= 4096", compared in unbounded
arithmetic (R69, R121). -/
def State.fetch (s : State) : Except Fault Word :=
  if s.pc.toNat + 1 ≥ 4096 then .error .addressOutOfRange
  else .ok (wordOfBytes (s.byteAt s.pc.toNat) (s.byteAt (s.pc.toNat + 1)))

end Sys2Proof.Machine
end

