-- ==== Sys2Proof/Machine/Flags.lean ====
section
/-! DEFINITION. The flag values (10_state.md R24, R25; 42_alu.md R160). The only flag is the register `VF`, and a flag
write stores 0 or 1. -/

namespace Sys2Proof.Machine

/-- A flag as the 8-bit value `VF` takes: 1 or 0, never any other (R24). -/
def flagByte (b : Bool) : Byte := if b then 1 else 0

/-- Carry out of the 8-bit add: the unbounded sum is above 255 (R160a). -/
def carryOut (a b : Byte) : Byte := flagByte (a.toNat + b.toNat > 255)

/-- Not-borrow of `a − b`: 1 if `a >= b` (R160b). -/
def notBorrow (a b : Byte) : Byte := flagByte (a.toNat ≥ b.toNat)

/-- The bit a right shift puts out, bit 0 (R160d). -/
def shiftedOutLow (a : Byte) : Byte := flagByte (a.getLsbD 0)

/-- The bit a left shift puts out, bit 7 (R160e). -/
def shiftedOutHigh (a : Byte) : Byte := flagByte (a.getLsbD 7)

/-- "V[X] first and VF second": of two writes to the same register the later stands (R13, R161). -/
def State.setRegThenFlag (s : State) (x : Reg) (r flag : Byte) : State := (s.setReg x r).setReg vf flag

/-- "VF first and V[X] second" (R13, R161). -/
def State.setFlagThenReg (s : State) (x : Reg) (r flag : Byte) : State := (s.setReg vf flag).setReg x r

end Sys2Proof.Machine
end

