-- ==== Sys2Proof/Machine/Operands.lean ====
section
/-! DEFINITION. The operand forms (30_encoding.md R103). A register operand is `State.reg`, read from the state the execute
stage began in, before any write (the operand latch, 00_scope.md R13, 40_step_pipeline.md R124). -/

namespace Sys2Proof.Machine

/-- An address operand: `NNN` zero-extended to 16 bits (R92, R103). -/
def addressOperand (nnn : BitVec 12) : Word := nnn.setWidth 16

/-- A register value zero-extended to 16 bits (R147, R182). -/
def wideOperand (b : Byte) : Word := b.setWidth 16

/-- A key operand: the low 4 bits of a register value, "keypad[Vx & 0xF]" (R103, R216). -/
def keyOperand (b : Byte) : Fin 16 := ⟨b.toNat % 16, by omega⟩

/-- A glyph operand: the address of the glyph of the low 4 bits, `font_base + (Vx & 0xF) * 5` (R103, R183). -/
def glyphOperand (b : Byte) : Word := BitVec.ofNat 16 (Config.fontBase + b.toNat % 16 * 5)

/-- The column a sprite starts in: x wraps mod 64 for the starting position only (R202). -/
def originX (b : Byte) : Nat := b.toNat % 64

/-- The row a sprite starts in: y wraps mod 32 for the starting position only (R202). -/
def originY (b : Byte) : Nat := b.toNat % 32

/-- How many of `n` sprite rows fall on the screen from row `y0` down: `min(N, 32 − y0)` (R202). -/
def visibleRows (n : Nibble) (y0 : Nat) : Nat := min n.toNat (32 - y0)

/-- The three decimal digits of a byte, hundreds first, a byte each (R184). -/
def bcdDigits (b : Byte) : List Byte :=
  [BitVec.ofNat 8 (b.toNat / 100), BitVec.ofNat 8 (b.toNat / 10 % 10), BitVec.ofNat 8 (b.toNat % 10)]

/-- `n` consecutive bytes of memory from `a` up (R72, R202). -/
def State.loadBytes (s : State) (a n : Nat) : List Byte := (List.range n).map fun r => s.byteAt (a + r)

/-- The smallest `k` with `KEY[k] = 1`, if any key is pressed (R218). -/
def State.lowestKey (s : State) : Option (Fin 16) := (List.finRange 16).find? fun k => s.key[k]

end Sys2Proof.Machine
end

