-- ==== Sys2Proof/Machine/Alu.lean ====
section
/-! DEFINITION. Register, arithmetic, logic, shift and random instructions (42_alu.md). All of them latch their operands
before any write (R124, R161). -/

namespace Sys2Proof.Machine

/-- `6XNN` LD Vx, NN (R162). -/
def execLdImm (x : Reg) (nn : Byte) (s : State) : Result := .next (s.setReg x nn)

/-- `7XNN` ADD Vx, NN (R163): wraps, no carry flag. -/
def execAddImm (x : Reg) (nn : Byte) (s : State) : Result := .next (s.setReg x (s.reg x + nn))

/-- `8XY0` LD Vx, Vy (R164). -/
def execLdReg (x y : Reg) (s : State) : Result := .next (s.setReg x (s.reg y))

/-- `8XY1` OR Vx, Vy (R165): `VF` is not reset. -/
def execOrReg (x y : Reg) (s : State) : Result := .next (s.setReg x (s.reg x ||| s.reg y))

/-- `8XY2` AND Vx, Vy (R166): `VF` is not reset. -/
def execAndReg (x y : Reg) (s : State) : Result := .next (s.setReg x (s.reg x &&& s.reg y))

/-- `8XY3` XOR Vx, Vy (R167): `VF` is not reset. -/
def execXorReg (x y : Reg) (s : State) : Result := .next (s.setReg x (s.reg x ^^^ s.reg y))

/-- `8XY4` ADD Vx, Vy (R168). -/
def execAddReg (x y : Reg) (s : State) : Result :=
  .next (s.setRegThenFlag x (s.reg x + s.reg y) (carryOut (s.reg x) (s.reg y)))

/-- `8XY5` SUB Vx, Vy (R169). -/
def execSubReg (x y : Reg) (s : State) : Result :=
  .next (s.setRegThenFlag x (s.reg x - s.reg y) (notBorrow (s.reg x) (s.reg y)))

/-- `8XY6` SHR Vx (R170): `Y` is ignored (R99). -/
def execShr (x _y : Reg) (s : State) : Result :=
  .next (s.setFlagThenReg x (s.reg x >>> 1) (shiftedOutLow (s.reg x)))

/-- `8XY7` SUBN Vx, Vy (R171): the comparison uses the values before the subtraction. -/
def execSubn (x y : Reg) (s : State) : Result :=
  .next (s.setRegThenFlag x (s.reg y - s.reg x) (notBorrow (s.reg y) (s.reg x)))

/-- `8XYE` SHL Vx (R172): `Y` is ignored (R99). -/
def execShl (x _y : Reg) (s : State) : Result :=
  .next (s.setFlagThenReg x (s.reg x <<< 1) (shiftedOutHigh (s.reg x)))

/-- `CXNN` RND Vx, NN (R173): the drawn byte is a free value (log entry 2). -/
def execRnd (x : Reg) (nn : Byte) (s : State) : Result := .next (s.draw.2.setReg x (s.draw.1 &&& nn))

end Sys2Proof.Machine
end

