-- ==== Sys2Proof/Machine/ControlFlow.lean ====
section
/-! DEFINITION. Control-flow instructions (41_control_flow.md). `s.pc` is the pre-incremented program counter (R122). -/

namespace Sys2Proof.Machine

/-- `00EE` RET (R140). -/
def execRet (s : State) : Result :=
  match s.pop with
  | .ok (target, t) => .next (t.setPc target)
  | .error f => raise f s

/-- `1NNN` JP NNN (R141). -/
def execJp (nnn : BitVec 12) (s : State) : Result := .next (s.setPc (addressOperand nnn))

/-- `2NNN` CALL NNN (R142): the pushed value is the pre-incremented `pc`. -/
def execCall (nnn : BitVec 12) (s : State) : Result :=
  match s.push s.pc with
  | .ok t => .next (t.setPc (addressOperand nnn))
  | .error f => raise f s

/-- `3XNN` SE Vx, NN (R143). -/
def execSeImm (x : Reg) (nn : Byte) (s : State) : Result := .next (s.skipIf (s.reg x == nn))

/-- `4XNN` SNE Vx, NN (R144). -/
def execSneImm (x : Reg) (nn : Byte) (s : State) : Result := .next (s.skipIf (s.reg x != nn))

/-- `5XY0` SE Vx, Vy (R145). -/
def execSeReg (x y : Reg) (s : State) : Result := .next (s.skipIf (s.reg x == s.reg y))

/-- `9XY0` SNE Vx, Vy (R146). -/
def execSneReg (x y : Reg) (s : State) : Result := .next (s.skipIf (s.reg x != s.reg y))

/-- `BNNN` JP V0, NNN (R147): the offset register is always `V0`, the sum is not reduced modulo 4096. -/
def execJpV0 (nnn : BitVec 12) (s : State) : Result :=
  .next (s.setPc (addressOperand nnn + wideOperand (s.reg 0)))

end Sys2Proof.Machine
end

