-- ==== Sys2Proof/Machine/Blend.lean ====
section
/-! DEFINITION. The sprite XOR-blend and collision unit (44_display.md R200, R203). -/

namespace Sys2Proof.Machine

/-- `DISP[y][x]` of a display. -/
def Display.cell (d : Display) (y : Fin 32) (x : Fin 64) : Bool := d[y].getMsbD x

/-- The blank display (R201). -/
def Display.blank : Display := Vector.replicate 32 0

/-- The bits of a sprite byte placed in a display row: sprite column `c`, bit `7 − c` of the byte, at column `x0 + c`
(R200); the columns past the right edge fall off (R202, R204c). -/
def rowMask (x0 : Nat) (b : Byte) : BitVec 64 := (b.setWidth 64 <<< 56) >>> x0

/-- Row `y` of `S` (R203): the sprite placed on the grid with its top left corner at `(x0, y0)`, clipped. -/
def spriteMask (x0 y0 : Nat) (sprite : List Byte) (y : Nat) : BitVec 64 :=
  if y0 ≤ y ∧ y < y0 + sprite.length then rowMask x0 (sprite.getD (y - y0) 0) else 0

/-- `D'[y][x] = D[y][x] XOR S[y][x]` (R203), a row at a time. -/
def blend (d : Display) (x0 y0 : Nat) (sprite : List Byte) : Display :=
  Vector.ofFn fun y => d[y] ^^^ spriteMask x0 y0 sprite y

/-- "1 iff there is a cell with D[y][x] = 1 and S[y][x] = 1" (R203). -/
def collides (d : Display) (x0 y0 : Nat) (sprite : List Byte) : Bool :=
  (List.finRange 32).any fun y => d[y] &&& spriteMask x0 y0 sprite y != 0

end Sys2Proof.Machine
end

