-- ==== Sys2Proof/Machine/DisplayOps.lean ====
section
/-! DEFINITION. Display instructions (44_display.md). -/

namespace Sys2Proof.Machine

/-- `00E0` CLS (R201). -/
def execCls (s : State) : Result := .next (s.setDisp Display.blank)

/-- The sprite rows `DXYN` reads: only those that fall on the screen (R202, R204d). -/
def State.spriteRows (s : State) (y : Reg) (n : Nibble) : List Byte :=
  s.loadBytes s.i.toNat (visibleRows n (originY (s.reg y)))

/-- The state after a draw that passed its range check: the blended display and the collision flag, both from the display
and the registers as they were (R202, R203). -/
def State.drawSprite (s : State) (x y : Reg) (n : Nibble) : State :=
  (s.setDisp (blend s.disp (originX (s.reg x)) (originY (s.reg y)) (s.spriteRows y n))).setReg vf
    (flagByte (collides s.disp (originX (s.reg x)) (originY (s.reg y)) (s.spriteRows y n)))

/-- `DXYN` DRW Vx, Vy, N (R202): the range check comes before the reset of `VF` and before any cell changes; the position
wraps for the origin only; `VF` is always written. -/
def execDrw (x y : Reg) (n : Nibble) (s : State) : Result :=
  s.guardRange s.i.toNat (visibleRows n (originY (s.reg y))) (.next (s.drawSprite x y n))

end Sys2Proof.Machine
end

