-- ==== Sys2Proof/Machine/IndexMemory.lean ====
section
/-! DEFINITION. Index-register and memory instructions (43_index_memory.md). None of them moves `I` as a base or writes a
flag (R180). -/

namespace Sys2Proof.Machine

/-- `ANNN` LD I, NNN (R181). -/
def execLdI (nnn : BitVec 12) (s : State) : Result := .next (s.setI (addressOperand nnn))

/-- `FX1E` ADD I, Vx (R182): 16-bit wrap, no flag. -/
def execAddI (x : Reg) (s : State) : Result := .next (s.setI (s.i + wideOperand (s.reg x)))

/-- `FX29` LD F, Vx (R183): computes an address, does not read memory. -/
def execLdF (x : Reg) (s : State) : Result := .next (s.setI (glyphOperand (s.reg x)))

/-- `FX33` LD B, Vx (R184). -/
def execLdB (x : Reg) (s : State) : Result :=
  s.guardRange s.i.toNat 3 (.next (s.storeBytes s.i.toNat (bcdDigits (s.reg x))))

/-- `FX55` LD [I], Vx (R185). -/
def execLdMemVx (x : Reg) (s : State) : Result :=
  s.guardRange s.i.toNat (x.val + 1) (.next (s.storeBytes s.i.toNat (s.regsUpTo x)))

/-- `FX65` LD Vx, [I] (R186). -/
def execLdVxMem (x : Reg) (s : State) : Result :=
  s.guardRange s.i.toNat (x.val + 1) (.next (s.setRegsUpTo x fun r => s.byteAt (s.i.toNat + r.val)))

end Sys2Proof.Machine
end

