-- ==== Sys2Proof/Machine/KeypadTimers.lean ====
section
/-! DEFINITION. Keypad and timer instructions (45_keypad_timers.md). -/

namespace Sys2Proof.Machine

/-- `EX9E` SKP Vx (R216). -/
def execSkp (x : Reg) (s : State) : Result := .next (s.skipIf s.key[keyOperand (s.reg x)])

/-- `EXA1` SKNP Vx (R217). -/
def execSknp (x : Reg) (s : State) : Result := .next (s.skipIf !s.key[keyOperand (s.reg x)])

/-- `FX0A` LD Vx, K (R218): the lowest pressed key, or `pc` rolled back to this instruction. -/
def execLdVxK (x : Reg) (s : State) : Result :=
  match s.lowestKey with
  | some k => .next (s.setReg x (BitVec.ofNat 8 k.val))
  | none => .next (s.setPc (s.pc - 2))

/-- `FX07` LD Vx, DT (R219). -/
def execLdVxDt (x : Reg) (s : State) : Result := .next (s.setReg x s.dt)

/-- `FX15` LD DT, Vx (R220). -/
def execLdDtVx (x : Reg) (s : State) : Result := .next (s.setDt (s.reg x))

/-- `FX18` LD ST, Vx (R221). -/
def execLdStVx (x : Reg) (s : State) : Result := .next (s.setSt (s.reg x))

end Sys2Proof.Machine
end

