-- ==== Sys2Proof/Machine/Pipeline.lean ====
section
/-! DEFINITION. The unrecognised word (40_step_pipeline.md R128). -/

namespace Sys2Proof.Machine

/-- `UNREC` (R128): the execute stage does nothing, whatever the word. -/
def execUnrec (_w : Word) (s : State) : Result := .next s

end Sys2Proof.Machine
end

