-- ==== Sys2Proof/Machine/Sequencer.lean ====
section
/-! DEFINITION. The commands of the host: STEP (40_step_pipeline.md), TICK, SETKEY and the output ports
(60_exceptions.md), RESET (70_reset_and_hazards.md). -/

namespace Sys2Proof.Machine

/-- The STEP command (R120): halt test (R129), fetch (R121), pre-increment (R122), decode (R123), execute. -/
def stepCommand (s : State) : Result :=
  if s.halted then .next s
  else
    match s.fetch with
    | .error f => raise f s
    | .ok w => exec (decodeWord w) s.advance

/-- The TICK command (R252): both timers decremented by one, floored at 0, halted or not (R255). -/
def State.tick (s : State) : State :=
  { s with dt := if s.dt = 0 then 0 else s.dt - 1, st := if s.st = 0 then 0 else s.st - 1 }

/-- Why RESET is refused. -/
inductive LoadError where
  /-- `RomTooLarge`: the image is longer than 3584 bytes (R267, R282). -/
  | romTooLarge
  deriving DecidableEq, Repr

/-- The machine after RESET with an image of a legal length (R281): every element of R47 rewritten. `FONT` is the
machine's parameter; the host's random source and the commands still on its port are not the core's to reset. -/
def State.loadImage (s : State) (rom : List Byte) : State :=
  { State.reset with
    mem := Mem.ofImage s.font Config.progBase rom, font := s.font, draws := s.draws, cmds := s.cmds }

/-- The RESET(ROM) command (R281, R284), or its refusal (R282). -/
def State.resetCommand (s : State) (rom : List Byte) : Except LoadError State :=
  if rom.length ≤ Config.maxImage then .ok (s.loadImage rom) else .error .romTooLarge

/-- One command of the host, one indivisible transition (R16, R73). A refused RESET changes nothing and is not recorded
in `FAULT` (R267, R282). -/
def runCommand (c : Command) (s : State) : Result :=
  match c with
  | .idle => .next s
  | .reset rom =>
    match s.resetCommand rom with
    | .ok t => .next t
    | .error .romTooLarge => .next s
  | .step => stepCommand s
  | .tick => .next s.tick
  | .setKey k p => .next (s.setKey k p)

/-- The next command on the port, and the state with it taken; with none listed it is STEP (log entry 3). -/
def State.nextCommand (s : State) : Command × State :=
  match s.cmds with
  | [] => (.step, s)
  | c :: rest => (c, { s with cmds := rest })

/-- Takes the next command of the port and performs it. -/
def runNext (s : State) : Result := runCommand s.nextCommand.1 s.nextCommand.2

/-- The display read port: the cell at the 11-bit address `y * 64 + x` (R258). -/
def State.readDisplay (s : State) (a : BitVec 11) : Bool :=
  s.disp.cell ⟨a.toNat / 64, by omega⟩ ⟨a.toNat % 64, by omega⟩

/-- The `tone` output: `ST > 0` (R259). -/
def State.tone (s : State) : Bool := s.st != 0

/-- The state with an instruction word placed at `pc`, high byte first (R69), ready to be the next thing done: FAULT clear
(R129), no other command listed. A `pc` that nothing can be fetched from (R121) is first set to the entry point 0x200. -/
def State.placeWord (s : State) (w : Word) : State :=
  let t : State := { s with fault := 0, cmds := [], pc := if s.pc.toNat + 1 ≥ 4096 then 0x200 else s.pc }
  t.storeBytes t.pc.toNat [highByte w, lowByte w]

end Sys2Proof.Machine
end

