-- ==== Sys2Proof/Machine/Step.lean ====
section
/-! DEFINITION. One transition of the machine: the next command of the host (00_scope.md R16). -/

namespace Sys2Proof.Machine

/-- One command, one transition (R16): the next one on the port, STEP when none is listed (log entry 3). -/
def step (s : State) : Host.Outcome State Fault Refusal := runNext s

/-- `s` with the instruction whose bits are `w`, the first `nbits` of them given and the rest 0, stored where the next
STEP fetches it (log entry 4). -/
def State.withFetchWord (s : State) (nbits w : Nat) : State := s.placeWord (BitVec.ofNat 16 (w % 2 ^ nbits))

end Sys2Proof.Machine
end

