-- ==== Sys2Proof/Machine/DrawLoop.lean ====
section
/-! DEFINITION. The draw loop as 44_display.md R202 writes it, cell by cell, for the statement that the blend unit of R203,
which the meaning of `DXYN` uses, gives the same display and the same flag. -/

namespace Sys2Proof.Machine

/-- `DISP[y][x] <- DISP[y][x] XOR 1` (R202). -/
def Display.toggle (d : Display) (y : Fin 32) (x : Fin 64) : Display := 
  d.set y (d[y] ^^^ BitVec.twoPow 64 (63 - x))

/-- The inner loop of R202 over the columns `c ..`, at most `fuel` of them: stops at the right edge, toggles the cell under
a set bit, and sets the flag when that cell was set. -/
def drawColumns (x0 : Nat) (y : Fin 32) (b : Byte) : Nat → Nat → Display × Bool → Display × Bool
  | 0, _, p => p
  | fuel + 1, c, (d, flag) =>
    if h : x0 + c < 64 then
      if b.getLsbD (7 - c) then
        drawColumns x0 y b fuel (c + 1) (d.toggle y ⟨x0 + c, h⟩, flag || d.cell y ⟨x0 + c, h⟩)
      else drawColumns x0 y b fuel (c + 1) (d, flag)
    else (d, flag)

/-- The outer loop of R202 over the rows from `y` down, one byte each: stops at the bottom edge. -/
def drawRows (x0 : Nat) : Nat → List Byte → Display × Bool → Display × Bool
  | _, [], p => p
  | y, b :: bs, p => if h : y < 32 then drawRows x0 (y + 1) bs (drawColumns x0 ⟨y, h⟩ b 8 0 p) else p

/-- The whole loop, the flag cleared first (R202). -/
def drawLoop (d : Display) (x0 y0 : Nat) (sprite : List Byte) : Display × Bool := drawRows x0 y0 sprite (d, false)

end Sys2Proof.Machine
end

