-- ==== Sys2Proof/Safety.lean ====
section
/-! DEFINITION. What counts as a good state and a good run, and the vocabulary of the statements that is not the
machine's own text. -/

namespace Sys2Proof.Machine

/-- The invariant of the machine: memory in canonical form (the model's own form, log entry 11), `pc` within the bound R35
derives for reachable states, and every stack entry a value a pre-incremented `pc` can have (R35). -/
def State.Inv (s : State) : Prop :=
  Mem.wf s.font s.mem ∧ s.pc.toNat ≤ 0x10FE ∧ ∀ k : Fin 16, s.stk[k].toNat ≤ 4096

/-- A run of `k` transitions that never meets a fault: "a state with FAULT != 0 is a fault state, never a final state of a
successful run" (R129, R247). -/
def SafeRun (k : Nat) (s : State) : Prop :=
  ∀ j ≤ k, ∃ t : State, Host.Core.run Sys2Proof.core j s = .next t ∧ t.fault = 0

/-- The code of the fault an instruction raises in the execute stage, as the table of R241 gives it, 0 for none. "No other
instruction and no other condition raises a fault." -/
def faultOf (i : Instr) (s : State) : BitVec 2 :=
  match i with
  | .drw _ y n =>
    let rows := min n.toNat (32 - (s.reg y).toNat % 32)
    if rows > 0 ∧ s.i.toNat + rows - 1 > 4095 then 1 else 0
  | .ldB _ => if s.i.toNat + 2 > 4095 then 1 else 0
  | .ldMemVx x => if s.i.toNat + x.val > 4095 then 1 else 0
  | .ldVxMem x => if s.i.toNat + x.val > 4095 then 1 else 0
  | .call _ => if s.sp.val = 16 then 2 else 0
  | .ret => if s.sp.val = 0 then 3 else 0
  | _ => 0

/-- "S[y][x] is 1" (R203), read off memory: the bit of the sprite at `I` that lands on cell `(x, y)` when `rows` rows are
drawn with their top left corner at `(x0, y0)`. -/
def State.SpriteBit (s : State) (x0 y0 rows y x : Nat) : Prop :=
  y0 ≤ y ∧ y < y0 + rows ∧ x0 ≤ x ∧ x < min (x0 + 8) 64 ∧
    (s.byteAt (s.i.toNat + (y - y0))).getLsbD (7 - (x - x0)) = true

/-- The byte at `a` once the bytes `us` have been stored from address `I` up: one of them if the block covers `a`, else
what `a` held before. -/
def State.byteUnder (s : State) (us : List Byte) (a : Nat) : Byte :=
  if s.i.toNat ≤ a then us.getD (a - s.i.toNat) (s.byteAt a) else s.byteAt a

/-- The word whose fields are the four given digits, most significant first (R10, R91). -/
def digits (c x y n : Nat) : Word := BitVec.ofNat 16 (c * 4096 + x * 256 + y * 16 + n)

/-- The word of class `c` with register `X` and low byte `nn` (R91). -/
def digitsXK (c x nn : Nat) : Word := BitVec.ofNat 16 (c * 4096 + x * 256 + nn)

/-- The word of class `c` with low twelve bits `nnn` (R91). -/
def digitsA (c nnn : Nat) : Word := BitVec.ofNat 16 (c * 4096 + nnn)

end Sys2Proof.Machine
end

