-- ==== Sys2Proof/Certificates/Slice0/Obligations.lean ====
section
/-! DEFINITION. The statements for the provers. In a statement about an instruction, `s` is the state its execute stage
begins in: `s.pc` is the pre-incremented program counter (R122). Writing `t = (s with some fields := t's)` says that every
other component of the machine is unchanged (the frame rule R127). -/

open Sys2Proof Sys2Proof.Machine

/-! ## Reset and the commands of the host -/

/-- R23, R31, R36, R40: the values after RESET with an empty image, and R285's for the other elements. -/
def Obligations.ResetStateHasTheSpecValues : Prop :=
  (∀ r, State.reset.reg r = 0) ∧ State.reset.i = 0 ∧ State.reset.pc = 0x200 ∧ State.reset.sp = 0 ∧
    (∀ k : Fin 16, State.reset.stk[k] = 0) ∧ State.reset.dt = 0 ∧ State.reset.st = 0 ∧ State.reset.tone = false ∧
    (∀ y x, State.reset.disp.cell y x = false) ∧ (∀ k : Fin 16, State.reset.key[k] = false) ∧
    State.reset.fault = 0 ∧ ∀ a < 4096, a < 0x50 ∨ 0xA0 ≤ a → State.reset.byteAt a = 0

/-- R281, R282, R285, R81: RESET with an image of at most 3584 bytes rewrites every element of the state, from any
state; a longer image is refused and nothing changes. -/
def Obligations.ResetCommandRewritesEverything : Prop :=
  ∀ (rom : List Byte) (s : State),
    (rom.length ≤ 3584 → ∃ t, runCommand (.reset rom) s = .next t ∧
      (∀ j (h : j < rom.length), t.byteAt (0x200 + j) = rom[j]) ∧
      (∀ j : Fin 80, t.byteAt (0x050 + j) = s.font[j]) ∧
      (∀ a < 4096, a < 0x050 ∨ (0x0A0 ≤ a ∧ a < 0x200) ∨ 0x200 + rom.length ≤ a → t.byteAt a = 0) ∧
      (∀ r, t.reg r = 0) ∧ t.i = 0 ∧ t.pc = 0x200 ∧ t.sp = 0 ∧ (∀ k : Fin 16, t.stk[k] = 0) ∧
      t.dt = 0 ∧ t.st = 0 ∧ t.tone = false ∧ (∀ y x, t.disp.cell y x = false) ∧ (∀ k : Fin 16, t.key[k] = false) ∧
      t.fault = 0) ∧
    (3584 < rom.length → s.resetCommand rom = .error .romTooLarge ∧ runCommand (.reset rom) s = .next s)

/-- R252: TICK decrements both timers, floored at 0, halted or not, and nothing else changes. From R41, R47 and the
direction R220, R221 presume (log entry 7): no instruction but `FX15` changes `DT` and none but `FX18` changes `ST`, and
a whole STEP leaves each timer as it was, or is that instruction's and sets the timer to `vx`. -/
def Obligations.TickDecrementsBothTimersOnly : Prop :=
  (∀ s : State, ∃ t, runCommand .tick s = .next t ∧
    t.dt.toNat = s.dt.toNat - 1 ∧ t.st.toNat = s.st.toNat - 1 ∧ t = { s with dt := t.dt, st := t.st }) ∧
  (∀ (i : Instr) (s t : State), exec i s = .next t →
    ((∀ x, i ≠ .ldDtVx x) → t.dt = s.dt) ∧ ((∀ x, i ≠ .ldStVx x) → t.st = s.st)) ∧
  ∀ s t : State, stepCommand s = .next t →
    let i := decodeWord (wordOfBytes (s.byteAt s.pc.toNat) (s.byteAt (s.pc.toNat + 1)))
    (t.dt = s.dt ∨ ∃ x, i = .ldDtVx x ∧ t.dt = s.reg x) ∧ (t.st = s.st ∨ ∃ x, i = .ldStVx x ∧ t.st = s.reg x)

/-- From R252, R253: after `n` TICKs a timer holds its value less `n`, floored at 0; so one set to `n` is 0 after
exactly `n` TICKs and stays there. -/
def Obligations.TimersDrainOneTickAtATime : Prop :=
  ∀ (s : State) (n : Nat),
    (State.tick^[n] s).dt.toNat = s.dt.toNat - n ∧ (State.tick^[n] s).st.toNat = s.st.toNat - n

/-- R256: SETKEY(k, p) writes `KEY[k]` and nothing else, halted or not. -/
def Obligations.SetKeyWritesOneKey : Prop :=
  ∀ (s : State) (k : Fin 16) (p : Bool), ∃ t, runCommand (.setKey k p) s = .next t ∧
    (∀ j : Fin 16, t.key[j] = if j = k then p else s.key[j]) ∧ t = { s with key := t.key }

/-- R258, R259, R260: the display port at address `y * 64 + x` reads `DISP[y][x]`; `tone` is `ST > 0`; halted is
`FAULT != 0`. -/
def Obligations.PortsShowDisplayToneAndFault : Prop :=
  ∀ (s : State) (y : Fin 32) (x : Fin 64),
    s.readDisplay (BitVec.ofNat 11 (y * 64 + x)) = s.disp.cell y x ∧
      (s.tone = true ↔ 0 < s.st.toNat) ∧ (s.halted = true ↔ s.fault ≠ 0)

/-! ## The STEP command -/

/-- R121, R122 (and the order of R120): STEP does nothing while halted; a fetch with `pc + 1 >= 4096` changes `FAULT`
alone; else the big-endian word at `pc` is executed with `pc` pre-incremented. -/
def Obligations.StepCommandStages : Prop :=
  ∀ s : State,
    (s.fault ≠ 0 → stepCommand s = .next s) ∧
    (s.fault = 0 → 4096 ≤ s.pc.toNat + 1 → stepCommand s = .next { s with fault := 1 }) ∧
    (s.fault = 0 → s.pc.toNat + 1 < 4096 →
      stepCommand s =
        exec (decodeWord (BitVec.ofNat 16 ((s.byteAt s.pc.toNat).toNat * 256 + (s.byteAt (s.pc.toNat + 1)).toNat)))
          { s with pc := s.pc + 2 })

/-- A step runs the decoded instruction: when STEP is the next command (nothing listed on the port, log entry 3, or
STEP listed first), the core is not halted, and the two bytes at `pc` decode to `i`, the step is `exec i` at the state
with `pc` past the word. -/
def Obligations.StepRunsTheDecodedInstruction : Prop :=
  ∀ (s : State) (i : Instr), s.fault = 0 → s.pc.toNat + 1 < 4096 →
    decode [s.byteAt s.pc.toNat, s.byteAt (s.pc.toNat + 1)] = .ok (i, []) →
    i.WellFormed ∧
    (s.cmds = [] → step s = exec i { s with pc := s.pc + 2 }) ∧
    ∀ rest, s.cmds = .step :: rest → step s = exec i { s with pc := s.pc + 2, cmds := rest }

/-- R16, R265, with the model's port (log entry 3): a step is one command, the next one listed; NONE, a core that receives
no command, holds the state, so that its step only takes it off the port; each step answers a next state. -/
def Obligations.StepPerformsTheNextCommand : Prop :=
  ∀ s : State,
    (∀ c rest, s.cmds = c :: rest → step s = runCommand c { s with cmds := rest }) ∧
    (s.cmds = [] → step s = runCommand .step s) ∧ runCommand .idle s = .next s ∧
    (∀ rest, s.cmds = .idle :: rest → step s = .next { s with cmds := rest }) ∧ ∃ t, step s = .next t

/-- Log entry 4: the word placed by `withFetchWord` is what the very next step runs, from any state in canonical form.
-/
def Obligations.PlacedWordIsRunNext : Prop :=
  ∀ (s : State) (nbits w : Nat), Mem.wf s.font s.mem →
    (s.withFetchWord nbits w).pc.toNat + 1 < 4096 ∧
    (s.pc.toNat + 1 < 4096 → (s.withFetchWord nbits w).pc = s.pc) ∧
    step (s.withFetchWord nbits w) =
      exec (decodeWord (BitVec.ofNat 16 (w % 2 ^ nbits)))
        { s.withFetchWord nbits w with pc := (s.withFetchWord nbits w).pc + 2 }

/-! ## Faults -/

/-- From R100, R125: every instruction, in every state, has a next state; none is refused and none stops the machine.
-/
def Obligations.EveryInstructionAnswersANextState : Prop :=
  ∀ (i : Instr) (s : State), ∃ t, exec i s = .next t

/-- R244: an instruction either completes with `FAULT` 0 or leaves everything but `FAULT` as its execute stage found
it; a fetch fault leaves everything but `FAULT` as the STEP found it. -/
def Obligations.FaultsArePrecise : Prop :=
  (∀ (i : Instr) (s t : State), s.fault = 0 → exec i s = .next t →
    t.fault = 0 ∨ ∃ f : Fault, t = { s with fault := f.code }) ∧
  ∀ (s t : State), s.fault = 0 → s.pc.toNat + 1 ≥ 4096 → stepCommand s = .next t → t = { s with fault := 1 }

/-- R241: every fault of the execute stage and of the fetch, with its code and its exact condition, and no other. -/
def Obligations.FaultsAreExactlyTheTable : Prop :=
  (∀ (i : Instr) (s t : State), s.fault = 0 → exec i s = .next t → t.fault = faultOf i s) ∧
  ∀ (s t : State), s.fault = 0 → stepCommand s = .next t →
    t.fault = if s.pc.toNat + 1 ≥ 4096 then 1 else
      faultOf (decodeWord (wordOfBytes (s.byteAt s.pc.toNat) (s.byteAt (s.pc.toNat + 1)))) { s with pc := s.pc + 2 }

/-- From R129, R247, R249, R255: no command but RESET leaves a halted state, and of the others TICK and SETKEY change
the timers and keys only. -/
def Obligations.OnlyResetLeavesTheHaltedState : Prop :=
  ∀ (c : Command) (s : State), s.fault ≠ 0 → (∀ rom, c ≠ .reset rom) →
    ∃ t, runCommand c s = .next t ∧ t.fault = s.fault ∧ t = { s with dt := t.dt, st := t.st, key := t.key } ∧
      (c = .step → t = s)

/-! ## Encoding -/

/-- Decode and encode agree: every well-formed instruction decodes from its own word, and from its bytes with any
bytes after them. -/
def Obligations.DecodeOfEncodeIsTheInstruction : Prop :=
  ∀ i : Instr, i.WellFormed → decodeWord (encode i) = i ∧ ∀ rest, decode (encodeBytes i ++ rest) = .ok (i, rest)

/-- From R104: decoding loses nothing; the word is recoverable from the decoded instruction, which is well formed. -/
def Obligations.EncodeOfDecodeIsTheWord : Prop :=
  ∀ w : Word, encode (decodeWord w) = w ∧ (decodeWord w).WellFormed

/-- R94: a word selects the instruction of the first and only row with `w AND mask = match`, and a word of no row is
unrecognised and executes as a no-operation. -/
def Obligations.DecodeFollowsTheOpcodeMap : Prop :=
  opcodeRows.length = 34 ∧
  (∀ (w : Word) (r : Row), r ∈ opcodeRows → (w &&& r.mask = r.pattern ↔ (decodeWord w).row = some r)) ∧
  ∀ w : Word, (∀ r ∈ opcodeRows, w &&& r.mask ≠ r.pattern) →
    decodeWord w = .unrec w ∧ ∀ s : State, exec (decodeWord w) s = .next s

/-- From R102 (which the spec derives from R97): the unrecognised words are exactly (a) to (f). -/
def Obligations.UnrecognisedWordsAreTheListedOnes : Prop :=
  ∀ w : Word, decodeWord w = .unrec w ↔
    (w.toNat / 4096 = 0 ∧ w.toNat % 4096 ≠ 0x0E0 ∧ w.toNat % 4096 ≠ 0x0EE) ∨
    (w.toNat / 4096 = 5 ∧ w.toNat % 16 ≠ 0) ∨
    (w.toNat / 4096 = 8 ∧ w.toNat % 16 ∈ [8, 9, 0xA, 0xB, 0xC, 0xD, 0xF]) ∨
    (w.toNat / 4096 = 9 ∧ w.toNat % 16 ≠ 0) ∨
    (w.toNat / 4096 = 0xE ∧ w.toNat % 256 ∉ [0x9E, 0xA1]) ∨
    (w.toNat / 4096 = 0xF ∧ w.toNat % 256 ∉ [0x07, 0x0A, 0x15, 0x18, 0x1E, 0x29, 0x33, 0x55, 0x65])

/-- Words of the spec's examples, one per family, read as the instructions they stand for. -/
def Obligations.ExampleWordsDecode : Prop :=
  decodeWord 0x2210 = .call 0x210 ∧ decodeWord 0x8125 = .subReg 1 2 ∧ decodeWord 0xF033 = .ldB 0 ∧
    decodeWord 0xD123 = .drw 1 2 3 ∧ decodeWord 0xE2A1 = .sknp 2 ∧ decodeWord 0xF618 = .ldStVx 6 ∧
    decodeWord 0x5121 = .unrec 0x5121

/-! ## Control flow (41_control_flow.md) and the unrecognised word -/

/-- R128: the execute stage of an unrecognised word changes nothing; no word of the opcode map decodes to one. -/
def Obligations.UnrecognisedWordDoesNothing : Prop :=
  ∀ (w : Word) (s : State), exec (.unrec w) s = .next s ∧
    (recognised w = false → decodeWord w = .unrec w) ∧ (recognised w = true → decodeWord w ≠ .unrec w)

/-- R140: RET pops `pc`, the entry keeps its value; with an empty stack it raises StackUnderflow and nothing else
changes. -/
def Obligations.RetPopsTheReturnAddress : Prop :=
  decodeWord 0x00EE = .ret ∧
  (∀ (s : State) (k : Fin 16), s.sp.val = k.val + 1 →
    ∃ t, exec .ret s = .next t ∧ t.pc = s.stk[k] ∧ t.sp.val = k.val ∧ t = { s with pc := t.pc, sp := t.sp }) ∧
  ∀ s : State, s.sp.val = 0 → exec .ret s = .next { s with fault := 3 }

/-- R141: JP writes `pc` alone. -/
def Obligations.JumpSetsPc : Prop :=
  ∀ (nnn : BitVec 12) (s : State), decodeWord (digitsA 1 nnn.toNat) = .jp nnn ∧
    ∃ t, exec (.jp nnn) s = .next t ∧ t.pc.toNat = nnn.toNat ∧ t = { s with pc := t.pc }

/-- R142: CALL stores the pre-incremented `pc` at `STK[SP]`, increments `SP` and jumps; with 16 entries in use it
raises StackOverflow and nothing else changes. -/
def Obligations.CallPushesTheReturnAddress : Prop :=
  ∀ (nnn : BitVec 12) (s : State), decodeWord (digitsA 2 nnn.toNat) = .call nnn ∧
    (∀ k : Fin 16, s.sp.val = k.val → ∃ t, exec (.call nnn) s = .next t ∧
      (∀ j : Fin 16, t.stk[j] = if j = k then s.pc else s.stk[j]) ∧ t.sp.val = k.val + 1 ∧
      t.pc.toNat = nnn.toNat ∧ t = { s with stk := t.stk, sp := t.sp, pc := t.pc }) ∧
    (s.sp.val = 16 → exec (.call nnn) s = .next { s with fault := 2 })

/-- R143: SE Vx, NN adds 2 to `pc` if `vx = NN`, and writes nothing else. -/
def Obligations.SkipIfEqualImmediate : Prop :=
  ∀ (x : Reg) (nn : Byte) (s : State), decodeWord (digitsXK 3 x nn.toNat) = .seImm x nn ∧
    exec (.seImm x nn) s = .next { s with pc := if s.reg x = nn then s.pc + 2 else s.pc }

/-- R144: SNE Vx, NN adds 2 to `pc` if `vx != NN`, and writes nothing else. -/
def Obligations.SkipIfNotEqualImmediate : Prop :=
  ∀ (x : Reg) (nn : Byte) (s : State), decodeWord (digitsXK 4 x nn.toNat) = .sneImm x nn ∧
    exec (.sneImm x nn) s = .next { s with pc := if s.reg x = nn then s.pc else s.pc + 2 }

/-- R145: SE Vx, Vy adds 2 to `pc` if `vx = vy`, and writes nothing else; `X = Y` always skips. -/
def Obligations.SkipIfRegistersEqual : Prop :=
  ∀ (x y : Reg) (s : State), decodeWord (digits 5 x y 0) = .seReg x y ∧
    exec (.seReg x y) s = .next { s with pc := if s.reg x = s.reg y then s.pc + 2 else s.pc } ∧
    exec (.seReg x x) s = .next { s with pc := s.pc + 2 }

/-- R146: SNE Vx, Vy adds 2 to `pc` if `vx != vy`, and writes nothing else; `X = Y` never skips. -/
def Obligations.SkipIfRegistersDiffer : Prop :=
  ∀ (x y : Reg) (s : State), decodeWord (digits 9 x y 0) = .sneReg x y ∧
    exec (.sneReg x y) s = .next { s with pc := if s.reg x = s.reg y then s.pc else s.pc + 2 } ∧
    exec (.sneReg x x) s = .next s

/-- R147: JP V0, NNN sets `pc` to `NNN + v0`, not reduced modulo 4096. -/
def Obligations.JumpWithOffsetAddsV0 : Prop :=
  ∀ (nnn : BitVec 12) (s : State), decodeWord (digitsA 0xB nnn.toNat) = .jpV0 nnn ∧
    ∃ t, exec (.jpV0 nnn) s = .next t ∧ t.pc.toNat = nnn.toNat + (s.reg 0).toNat ∧ t = { s with pc := t.pc }

/-! ## ALU (42_alu.md) -/

/-- R162: `V[X]` is `NN`. -/
def Obligations.LoadImmediate : Prop :=
  ∀ (x : Reg) (nn : Byte) (s : State), decodeWord (digitsXK 6 x nn.toNat) = .ldImm x nn ∧
    ∃ t, exec (.ldImm x nn) s = .next t ∧ (∀ r, t.reg r = if r = x then nn else s.reg r) ∧ t = { s with v := t.v }

/-- R163: the sum modulo 256, and no flag: `VF` is unchanged unless `X = 0xF`. -/
def Obligations.AddImmediateWrapsWithoutFlag : Prop :=
  ∀ (x : Reg) (nn : Byte) (s : State), decodeWord (digitsXK 7 x nn.toNat) = .addImm x nn ∧
    ∃ t, exec (.addImm x nn) s = .next t ∧ (t.reg x).toNat = ((s.reg x).toNat + nn.toNat) % 256 ∧
      (∀ r, r ≠ x → t.reg r = s.reg r) ∧ t = { s with v := t.v }

/-- R164: `V[X]` is `vy`. -/
def Obligations.CopyRegister : Prop :=
  ∀ (x y : Reg) (s : State), decodeWord (digits 8 x y 0) = .ldReg x y ∧
    ∃ t, exec (.ldReg x y) s = .next t ∧ (∀ r, t.reg r = if r = x then s.reg y else s.reg r) ∧ t = { s with v := t.v }

/-- R165, R166, R167: bit by bit or, and, exclusive or into `V[X]`; `VF` is not reset. -/
def Obligations.LogicIsBitwiseAndKeepsTheFlag : Prop :=
  ∀ (x y : Reg) (s : State),
    (decodeWord (digits 8 x y 1) = .orReg x y ∧ ∃ t, exec (.orReg x y) s = .next t ∧
      (∀ k < 8, (t.reg x).getLsbD k = ((s.reg x).getLsbD k || (s.reg y).getLsbD k)) ∧
      (∀ r, r ≠ x → t.reg r = s.reg r) ∧ t = { s with v := t.v }) ∧
    (decodeWord (digits 8 x y 2) = .andReg x y ∧ ∃ t, exec (.andReg x y) s = .next t ∧
      (∀ k < 8, (t.reg x).getLsbD k = ((s.reg x).getLsbD k && (s.reg y).getLsbD k)) ∧
      (∀ r, r ≠ x → t.reg r = s.reg r) ∧ t = { s with v := t.v }) ∧
    (decodeWord (digits 8 x y 3) = .xorReg x y ∧ ∃ t, exec (.xorReg x y) s = .next t ∧
      (∀ k < 8, (t.reg x).getLsbD k = ((s.reg x).getLsbD k ^^ (s.reg y).getLsbD k)) ∧
      (∀ r, r ≠ x → t.reg r = s.reg r) ∧ t = { s with v := t.v })

/-- R168, the write order being the spec's decision D6: the sum modulo 256, then `VF` = carry; with `X = 0xF` the
carry stands. -/
def Obligations.AddSetsCarry : Prop :=
  ∀ (x y : Reg) (s : State), decodeWord (digits 8 x y 4) = .addReg x y ∧
    ∃ t, exec (.addReg x y) s = .next t ∧
      (x ≠ 15 → (t.reg x).toNat = ((s.reg x).toNat + (s.reg y).toNat) % 256) ∧
      t.reg 15 = (if (s.reg x).toNat + (s.reg y).toNat > 255 then 1 else 0) ∧
      (∀ r, r ≠ x → r ≠ 15 → t.reg r = s.reg r) ∧ t = { s with v := t.v }

/-- R169, the write order being the spec's decision D6: `vx − vy` modulo 256, then `VF` = 1 if `vx >= vy`; with `X =
0xF` the flag stands. -/
def Obligations.SubtractSetsNotBorrow : Prop :=
  ∀ (x y : Reg) (s : State), decodeWord (digits 8 x y 5) = .subReg x y ∧
    ∃ t, exec (.subReg x y) s = .next t ∧
      (x ≠ 15 → (t.reg x).toNat =
        if (s.reg x).toNat ≥ (s.reg y).toNat then (s.reg x).toNat - (s.reg y).toNat
        else (s.reg x).toNat + 256 - (s.reg y).toNat) ∧
      t.reg 15 = (if (s.reg x).toNat ≥ (s.reg y).toNat then 1 else 0) ∧
      (∀ r, r ≠ x → r ≠ 15 → t.reg r = s.reg r) ∧ t = { s with v := t.v }

/-- R171, the write order being the spec's decision D6: `vy − vx` modulo 256, then `VF` = 1 if `vy >= vx` of the
values before the subtraction. -/
def Obligations.ReverseSubtractSetsNotBorrow : Prop :=
  ∀ (x y : Reg) (s : State), decodeWord (digits 8 x y 7) = .subn x y ∧
    ∃ t, exec (.subn x y) s = .next t ∧
      (x ≠ 15 → (t.reg x).toNat =
        if (s.reg y).toNat ≥ (s.reg x).toNat then (s.reg y).toNat - (s.reg x).toNat
        else (s.reg y).toNat + 256 - (s.reg x).toNat) ∧
      t.reg 15 = (if (s.reg y).toNat ≥ (s.reg x).toNat then 1 else 0) ∧
      (∀ r, r ≠ x → r ≠ 15 → t.reg r = s.reg r) ∧ t = { s with v := t.v }

/-- R170, the write order being the spec's decision D6: `VF` = bit 0 of `vx`, then `V[X]` = `vx div 2`, which stands
when `X = 0xF`; `Y` plays no part. -/
def Obligations.ShiftRightPutsOutBitZero : Prop :=
  ∀ (x y : Reg) (s : State), decodeWord (digits 8 x y 6) = .shr x y ∧
    ∃ t, exec (.shr x y) s = .next t ∧ (t.reg x).toNat = (s.reg x).toNat / 2 ∧
      (x ≠ 15 → (t.reg 15).toNat = (s.reg x).toNat % 2) ∧
      (∀ r, r ≠ x → r ≠ 15 → t.reg r = s.reg r) ∧ t = { s with v := t.v }

/-- R172, the write order being the spec's decision D6: `VF` = bit 7 of `vx`, then `V[X]` = `(vx * 2) mod 256`, which
stands when `X = 0xF`; `Y` plays no part. -/
def Obligations.ShiftLeftPutsOutBitSeven : Prop :=
  ∀ (x y : Reg) (s : State), decodeWord (digits 8 x y 0xE) = .shl x y ∧
    ∃ t, exec (.shl x y) s = .next t ∧ (t.reg x).toNat = (s.reg x).toNat * 2 % 256 ∧
      (x ≠ 15 → (t.reg 15).toNat = (s.reg x).toNat / 128) ∧
      (∀ r, r ≠ x → r ≠ 15 → t.reg r = s.reg r) ∧ t = { s with v := t.v }

/-- From R173: the masked draw, whatever the drawn byte is (a free value, log entry 2); every bit that is 0 in `NN` is
0. The counter of draws is the model's own. -/
def Obligations.RandomByteIsMasked : Prop :=
  ∀ (x : Reg) (nn : Byte) (s : State), decodeWord (digitsXK 0xC x nn.toNat) = .rnd x nn ∧
    ∃ t, exec (.rnd x nn) s = .next t ∧ t.reg x = Config.rnd s.draws &&& nn ∧
      (∀ k, nn.getLsbD k = false → (t.reg x).getLsbD k = false) ∧
      (∀ r, r ≠ x → t.reg r = s.reg r) ∧ t = { s with v := t.v, draws := s.draws + 1 }

/-! ## Index register and memory (43_index_memory.md) -/

/-- R181: `I` is `NNN`. -/
def Obligations.LoadIndexImmediate : Prop :=
  ∀ (nnn : BitVec 12) (s : State), decodeWord (digitsA 0xA nnn.toNat) = .ldI nnn ∧
    ∃ t, exec (.ldI nnn) s = .next t ∧ t.i.toNat = nnn.toNat ∧ t = { s with i := t.i }

/-- R182: 16-bit wrap, no flag. -/
def Obligations.AddToIndexWrapsAtSixteenBits : Prop :=
  ∀ (x : Reg) (s : State), decodeWord (digitsXK 0xF x 0x1E) = .addI x ∧
    ∃ t, exec (.addI x) s = .next t ∧ t.i.toNat = (s.i.toNat + (s.reg x).toNat) % 65536 ∧ t = { s with i := t.i }

/-- R183: the glyph's address, from the low 4 bits of `vx`. -/
def Obligations.FontPointerIsTheGlyphAddress : Prop :=
  ∀ (x : Reg) (s : State), decodeWord (digitsXK 0xF x 0x29) = .ldF x ∧
    ∃ t, exec (.ldF x) s = .next t ∧ t.i.toNat = 0x50 + (s.reg x).toNat % 16 * 5 ∧ t = { s with i := t.i }

/-- R184: the three decimal digits at `I`, `I+1`, `I+2`, every other byte and everything else unchanged; the address
fault, with nothing stored, when `I > 4093`. -/
def Obligations.BcdStoresThreeDigits : Prop :=
  ∀ (x : Reg) (s : State), decodeWord (digitsXK 0xF x 0x33) = .ldB x ∧
    (Mem.wf s.font s.mem → s.i.toNat + 2 ≤ 4095 → ∃ t, exec (.ldB x) s = .next t ∧
      (t.byteAt s.i.toNat).toNat = (s.reg x).toNat / 100 ∧
      (t.byteAt (s.i.toNat + 1)).toNat = (s.reg x).toNat / 10 % 10 ∧
      (t.byteAt (s.i.toNat + 2)).toNat = (s.reg x).toNat % 10 ∧
      (∀ a, a < s.i.toNat ∨ s.i.toNat + 2 < a → t.byteAt a = s.byteAt a) ∧ t = { s with mem := t.mem }) ∧
    (s.i.toNat + 2 > 4095 → exec (.ldB x) s = .next { s with fault := 1 })

/-- R185: `V[0]..V[X]` to `MEM[I]..MEM[I+X]`, every other byte and everything else unchanged; the address fault, with
nothing stored, when `I + X > 4095`. -/
def Obligations.StoreRegisterBlock : Prop :=
  ∀ (x : Reg) (s : State), decodeWord (digitsXK 0xF x 0x55) = .ldMemVx x ∧
    (Mem.wf s.font s.mem → s.i.toNat + x.val ≤ 4095 → ∃ t, exec (.ldMemVx x) s = .next t ∧
      (∀ r : Reg, r ≤ x → t.byteAt (s.i.toNat + r.val) = s.reg r) ∧
      (∀ a, a < s.i.toNat ∨ s.i.toNat + x.val < a → t.byteAt a = s.byteAt a) ∧ t = { s with mem := t.mem }) ∧
    (s.i.toNat + x.val > 4095 → exec (.ldMemVx x) s = .next { s with fault := 1 })

/-- R186: `MEM[I]..MEM[I+X]` to `V[0]..V[X]`, the registers above `X` and everything else unchanged; the address
fault, with nothing loaded, when `I + X > 4095`. -/
def Obligations.LoadRegisterBlock : Prop :=
  ∀ (x : Reg) (s : State), decodeWord (digitsXK 0xF x 0x65) = .ldVxMem x ∧
    (s.i.toNat + x.val ≤ 4095 → ∃ t, exec (.ldVxMem x) s = .next t ∧
      (∀ r : Reg, t.reg r = if r ≤ x then s.byteAt (s.i.toNat + r.val) else s.reg r) ∧ t = { s with v := t.v }) ∧
    (s.i.toNat + x.val > 4095 → exec (.ldVxMem x) s = .next { s with fault := 1 })

/-- From R187 (which the spec derives from R185, R186 and R180): `FX55` followed by `FX65` with the same `X`,
unchanged `I` and unchanged memory restores `V0..VX`, whatever has become of the registers in between. -/
def Obligations.StoreThenLoadRestoresRegisters : Prop :=
  ∀ (x : Reg) (s : State), Mem.wf s.font s.mem → s.i.toNat + x.val ≤ 4095 →
    ∃ t, exec (.ldMemVx x) s = .next t ∧ t.i = s.i ∧
      ∀ t' : State, t'.mem = t.mem → t'.font = t.font → t'.i = t.i →
        ∃ u, exec (.ldVxMem x) t' = .next u ∧ u.i = s.i ∧ ∀ r : Reg, r ≤ x → u.reg r = s.reg r

/-- From R78: after a store by `FX55` or `FX33` the next STEP executes the word whose bytes are those just stored,
whichever of the two bytes at `pc` the store covers, and the old bytes where it covers none. -/
def Obligations.StoreIsSeenByTheNextFetch : Prop :=
  ∀ (x : Reg) (s : State), Mem.wf s.font s.mem → s.fault = 0 → s.pc.toNat + 1 < 4096 →
    (s.i.toNat + x.val ≤ 4095 → ∃ t, exec (.ldMemVx x) s = .next t ∧
      let b := s.byteUnder (List.ofFn fun j : Fin (x.val + 1) => s.reg ⟨j.val, by omega⟩)
      stepCommand t = exec (decodeWord (wordOfBytes (b s.pc.toNat) (b (s.pc.toNat + 1)))) { t with pc := s.pc + 2 }) ∧
    (s.i.toNat + 2 ≤ 4095 → ∃ t, exec (.ldB x) s = .next t ∧
      let n := (s.reg x).toNat
      let b := s.byteUnder [BitVec.ofNat 8 (n / 100), BitVec.ofNat 8 (n / 10 % 10), BitVec.ofNat 8 (n % 10)]
      stepCommand t = exec (decodeWord (wordOfBytes (b s.pc.toNat) (b (s.pc.toNat + 1)))) { t with pc := s.pc + 2 })

/-! ## Display (44_display.md) -/

/-- R201: every cell 0, `VF` and everything else unchanged. -/
def Obligations.ClearScreenClearsEveryCell : Prop :=
  decodeWord 0x00E0 = .cls ∧
  ∀ s : State, ∃ t, exec .cls s = .next t ∧ (∀ y x, t.disp.cell y x = false) ∧ t = { s with disp := t.disp }

/-- R202: with the range check passed, every cell is XORed with the clipped sprite, `VF` is the collision flag, all
else is unchanged; else the address fault and nothing drawn. The position wraps for the origin only, rows off the
bottom are not read. -/
def Obligations.DrawBlendsTheClippedSprite : Prop :=
  ∀ (x y : Reg) (n : Nibble) (s : State), decodeWord (digits 0xD x y n.toNat) = .drw x y n ∧
    ∀ x0 y0 rows, x0 = (s.reg x).toNat % 64 → y0 = (s.reg y).toNat % 32 → rows = min n.toNat (32 - y0) →
      (rows = 0 ∨ s.i.toNat + rows - 1 ≤ 4095 → ∃ t, exec (.drw x y n) s = .next t ∧
        (∀ (v : Fin 32) (u : Fin 64), t.disp.cell v u = true ↔
          Xor (s.disp.cell v u = true) (s.SpriteBit x0 y0 rows v u)) ∧
        (t.reg 15 = 1 ∧ (∃ (v : Fin 32) (u : Fin 64), s.disp.cell v u = true ∧ s.SpriteBit x0 y0 rows v u) ∨
          t.reg 15 = 0 ∧ ¬∃ (v : Fin 32) (u : Fin 64), s.disp.cell v u = true ∧ s.SpriteBit x0 y0 rows v u) ∧
        (∀ r, r ≠ 15 → t.reg r = s.reg r) ∧ t = { s with v := t.v, disp := t.disp }) ∧
      (rows > 0 → s.i.toNat + rows - 1 > 4095 → exec (.drw x y n) s = .next { s with fault := 1 })

/-- From R203 (which the spec derives from R202): the blend unit gives the display and the flag of R202's loop over
rows and columns. -/
def Obligations.BlendUnitRefinesTheDrawLoop : Prop :=
  ∀ (d : Display) (x0 y0 : Nat) (sprite : List Byte), x0 < 64 → y0 + sprite.length ≤ 32 →
    drawLoop d x0 y0 sprite = (blend d x0 y0 sprite, collides d x0 y0 sprite)

/-- From R205, read as log entry 8 says: an 8×1 sprite 0xFF at (60, 0) on a clear display lights columns 60 to 63 of
row 0 only, with no collision; a sprite drawn twice at the same place restores the display, and over a clear one the
second draw collides exactly when the sprite has a visible bit. -/
def Obligations.DrawClipsAndUndoesItself : Prop :=
  (∀ (x y : Reg) (s : State), s.reg x = 60 → s.reg y = 0 → s.i.toNat ≤ 4095 → s.byteAt s.i.toNat = 0xFF →
    (∀ v u, s.disp.cell v u = false) → ∃ t, exec (.drw x y 1) s = .next t ∧ t.reg 15 = 0 ∧
      ∀ (v : Fin 32) (u : Fin 64), t.disp.cell v u = true ↔ v.val = 0 ∧ 60 ≤ u.val) ∧
  ∀ (x y : Reg) (n : Nibble) (s : State), x ≠ 15 → y ≠ 15 → s.i.toNat + 15 ≤ 4096 →
    ∃ t u, exec (.drw x y n) s = .next t ∧ exec (.drw x y n) t = .next u ∧ u.disp = s.disp ∧
      ((∀ v u, s.disp.cell v u = false) → (u.reg 15 = 1 ↔ ∃ (v : Fin 32) (w : Fin 64), t.disp.cell v w = true))

/-! ## Keypad and timers (45_keypad_timers.md) -/

/-- R216: skips if the key named by the low 4 bits of `vx` is pressed. -/
def Obligations.SkipIfKeyPressed : Prop :=
  ∀ (x : Reg) (k : Fin 16) (s : State), decodeWord (digitsXK 0xE x 0x9E) = .skp x ∧
    (k.val = (s.reg x).toNat % 16 →
      exec (.skp x) s = .next { s with pc := if s.key[k] then s.pc + 2 else s.pc })

/-- R217: skips if the key named by the low 4 bits of `vx` is not pressed. -/
def Obligations.SkipIfKeyNotPressed : Prop :=
  ∀ (x : Reg) (k : Fin 16) (s : State), decodeWord (digitsXK 0xE x 0xA1) = .sknp x ∧
    (k.val = (s.reg x).toNat % 16 →
      exec (.sknp x) s = .next { s with pc := if s.key[k] then s.pc else s.pc + 2 })

/-- R218, the lowest key being the spec's decision D8: the smallest pressed key goes to `V[X]`; with no key pressed
`pc` goes back by 2 and nothing else changes. -/
def Obligations.WaitForKeyTakesTheLowestOrRewinds : Prop :=
  ∀ (x : Reg) (s : State), decodeWord (digitsXK 0xF x 0x0A) = .ldVxK x ∧
    (∀ k : Fin 16, s.key[k] = true → (∀ j : Fin 16, j < k → s.key[j] = false) → ∃ t, exec (.ldVxK x) s = .next t ∧
      (t.reg x).toNat = k.val ∧ (∀ r, r ≠ x → t.reg r = s.reg r) ∧ t = { s with v := t.v }) ∧
    ((∀ k : Fin 16, s.key[k] = false) → exec (.ldVxK x) s = .next { s with pc := s.pc - 2 })

/-- From R219, whose direction the spec itself takes from general knowledge (log entry 7): `V[X]` takes `DT`. -/
def Obligations.ReadDelayTimer : Prop :=
  ∀ (x : Reg) (s : State), decodeWord (digitsXK 0xF x 0x07) = .ldVxDt x ∧
    ∃ t, exec (.ldVxDt x) s = .next t ∧ (∀ r, t.reg r = if r = x then s.dt else s.reg r) ∧ t = { s with v := t.v }

/-- From R220, R221, whose direction the spec itself takes from general knowledge (log entry 7): `DT`, or `ST`, takes
`vx`, and `tone` rises or drops with `ST` at once. -/
def Obligations.TimersTakeTheRegister : Prop :=
  ∀ (x : Reg) (s : State),
    (decodeWord (digitsXK 0xF x 0x15) = .ldDtVx x ∧ exec (.ldDtVx x) s = .next { s with dt := s.reg x }) ∧
    (decodeWord (digitsXK 0xF x 0x18) = .ldStVx x ∧ ∃ t, exec (.ldStVx x) s = .next t ∧
      t = { s with st := s.reg x } ∧ (t.tone = true ↔ s.reg x ≠ 0))

/-! ## Whole-machine rules -/

/-- The invariant holds after reset. Its bounds on `pc` and the stack entries are those R35 derives; that memory is in
canonical form is the model's own choice (log entry 11, DESIGN CHOICE). -/
def Obligations.ResetMeetsTheInvariant : Prop := State.reset.Inv

/-- Every step, whatever command it performs, keeps the invariant: `pc` and the stack entries stay within the bounds R35
derives, and memory stays in the canonical form, which is the model's own choice (log entry 11, DESIGN CHOICE). -/
def Obligations.StepKeepsTheInvariant : Prop := ∀ s t : State, s.Inv → step s = .next t → t.Inv

/-- From R39: a CALL and then a RET, `pc` wherever the subroutine has left it, restore `SP` and return to the
instruction after the CALL. -/
def Obligations.CallThenReturnRestoresPcAndDepth : Prop :=
  ∀ (nnn : BitVec 12) (s : State), s.sp.val < 16 → ∃ t, exec (.call nnn) s = .next t ∧
    ∀ p : Word, ∃ u, exec .ret { t with pc := p } = .next u ∧ u.pc = s.pc ∧ u.sp = s.sp

/-- From R38, R42, R43, R72, R127: whatever the instruction, the keypad is unchanged; only CLS and DRW change the
display, only `FX33` and `FX55` memory, only CALL and RET `SP`, only CALL the stack entries, and only `ANNN`, `FX1E`
and `FX29` the index register. -/
def Obligations.OnlyTheNamedInstructionsWrite : Prop :=
  ∀ (i : Instr) (s t : State), exec i s = .next t →
    t.key = s.key ∧
    (t.disp ≠ s.disp → i = .cls ∨ ∃ x y n, i = .drw x y n) ∧
    (t.mem ≠ s.mem → (∃ x, i = .ldB x) ∨ ∃ x, i = .ldMemVx x) ∧
    (t.sp ≠ s.sp → i = .ret ∨ ∃ nnn, i = .call nnn) ∧
    (t.stk ≠ s.stk → ∃ nnn, i = .call nnn) ∧
    (t.i ≠ s.i → (∃ nnn, i = .ldI nnn) ∨ (∃ x, i = .addI x) ∨ ∃ x, i = .ldF x)

/-- From R41, R44: no instruction reads `ST`. Two states that differ only in `ST` have next states that differ only in
`ST`. -/
def Obligations.NoInstructionReadsTheSoundTimer : Prop :=
  ∀ (i : Instr) (s t : State) (b : Byte), exec i s = .next t →
    ∃ t', exec i { s with st := b } = .next t' ∧ t = { t' with st := t.st }
end

