-- ==== Sys2Proof/Laws/Decode.lean ====
section
/-! SUPPORT. The fields of an assembled word are the fields it was assembled from (30_encoding.md R91, R93), and the bytes
of a word are joined back to it (20_memory.md R69). -/

namespace Sys2Proof

@[simp] theorem fieldClass_wordA (c : Fin 16) (nnn : BitVec 12) : fieldClass (wordA c nnn) = c := by
  apply Fin.ext; simp [fieldClass, wordA, Nat.shiftRight_eq_div_pow]; omega

@[simp] theorem fieldNNN_wordA (c : Fin 16) (nnn : BitVec 12) : fieldNNN (wordA c nnn) = nnn := by
  apply BitVec.eq_of_toNat_eq; simp [fieldNNN, wordA]; omega

@[simp] theorem fieldClass_wordXK (c : Fin 16) (x : Reg) (nn : Byte) : fieldClass (wordXK c x nn) = c := by
  apply Fin.ext; simp [fieldClass, wordXK, Nat.shiftRight_eq_div_pow]; omega

@[simp] theorem fieldX_wordXK (c : Fin 16) (x : Reg) (nn : Byte) : fieldX (wordXK c x nn) = x := by
  apply Fin.ext; simp [fieldX, wordXK, Nat.shiftRight_eq_div_pow]; omega

@[simp] theorem fieldNN_wordXK (c : Fin 16) (x : Reg) (nn : Byte) : fieldNN (wordXK c x nn) = nn := by
  apply BitVec.eq_of_toNat_eq; simp [fieldNN, wordXK]; omega

@[simp] theorem fieldClass_wordXYN (c : Fin 16) (x y : Reg) (n : Nibble) : fieldClass (wordXYN c x y n) = c := by
  apply Fin.ext; simp [fieldClass, wordXYN, Nat.shiftRight_eq_div_pow]; omega

@[simp] theorem fieldX_wordXYN (c : Fin 16) (x y : Reg) (n : Nibble) : fieldX (wordXYN c x y n) = x := by
  apply Fin.ext; simp [fieldX, wordXYN, Nat.shiftRight_eq_div_pow]; omega

@[simp] theorem fieldY_wordXYN (c : Fin 16) (x y : Reg) (n : Nibble) : fieldY (wordXYN c x y n) = y := by
  apply Fin.ext; simp [fieldY, wordXYN, Nat.shiftRight_eq_div_pow]; omega

@[simp] theorem fieldN_wordXYN (c : Fin 16) (x y : Reg) (n : Nibble) : fieldN (wordXYN c x y n) = n := by
  apply BitVec.eq_of_toNat_eq; simp [fieldN, wordXYN]; omega

/-- The two bytes of a word, joined high byte first, are the word (R69). -/
@[simp] theorem wordOfBytes_bytes (w : Word) : wordOfBytes (highByte w) (lowByte w) = w := by
  apply BitVec.eq_of_toNat_eq
  simp only [wordOfBytes, highByte, lowByte, BitVec.toNat_append, BitVec.extractLsb'_toNat, Nat.shiftRight_eq_div_pow]
  rw [← Nat.shiftLeft_add_eq_or_of_lt (by omega), Nat.shiftLeft_eq]
  omega

/-- A word is determined by its class, `X`, `Y` and `N` (R91). -/
theorem wordXYN_fields (w : Word) : wordXYN (fieldClass w) (fieldX w) (fieldY w) (fieldN w) = w := by
  apply BitVec.eq_of_toNat_eq
  simp [wordXYN, fieldClass, fieldX, fieldY, fieldN, Nat.shiftRight_eq_div_pow]
  omega

/-- A word is determined by its class, `X` and `NN` (R91). -/
theorem wordXK_fields (w : Word) : wordXK (fieldClass w) (fieldX w) (fieldNN w) = w := by
  apply BitVec.eq_of_toNat_eq
  simp [wordXK, fieldClass, fieldX, fieldNN, Nat.shiftRight_eq_div_pow]
  omega

/-- A word is determined by its class and `NNN` (R91). -/
theorem wordA_fields (w : Word) : wordA (fieldClass w) (fieldNNN w) = w := by
  apply BitVec.eq_of_toNat_eq
  simp [wordA, fieldClass, fieldNNN, Nat.shiftRight_eq_div_pow]
  omega

end Sys2Proof
end

