-- ==== Sys2Proof/Laws/Memory.lean ====
section
/-! SUPPORT. Memory as an array of bytes (20_memory.md): a read after a write, and the canonical form, which every write
keeps. -/

namespace Sys2Proof.Machine.Mem

variable (font : Vector Byte 80)

/-- Outside the font every unlisted byte is zero (R63). -/
theorem background_eq_zero {a : Nat} (h : a < 0x50 ∨ 0xA0 ≤ a) : background font a = 0 := by
  have : ¬(Config.fontBase ≤ a ∧ a < Config.fontBase + 80) := by simp only [Config.fontBase]; omega
  rw [background, dif_neg this]

/-- Glyph bytes lie at `FONT_BASE + j` (R63). -/
theorem background_font (j : Fin 80) : background font (0x50 + j) = font[j] := by
  have : Config.fontBase ≤ 0x50 + j.val ∧ 0x50 + j.val < Config.fontBase + 80 := by
    simp only [Config.fontBase]; omega
  rw [background, dif_pos this]
  simp [Config.fontBase]

/-- A write leaves every other byte alone. -/
theorem read_write_ne (m : List Host.Cell) {a b : Nat} (u : Byte) (h : b ≠ a) :
    read font (write font m a u) b = read font m b := by
  induction m with
  | nil => by_cases hu : u = background font a <;> simp [write, read, hu, h]
  | cons c rest ih =>
    obtain ⟨k, w⟩ := c
    simp only [write]
    split_ifs with h1 h2 h2 h3 <;> simp_all [read]

/-- An address below every cell reads as when unlisted. -/
theorem read_of_lt {m : List Host.Cell} {a : Nat} (h : ∀ c ∈ m, a < c.1) : read font m a = background font a := by
  induction m with
  | nil => rfl
  | cons c rest ih =>
    have h1 : a ≠ c.1 := by have := h c (by simp); omega
    simp only [read, if_neg h1]
    exact ih fun d hd => h d (by simp [hd])

/-- A read after a write to the same place gives the value written. -/
theorem read_write_self {m : List Host.Cell} (hm : wf font m) (a : Nat) (u : Byte) :
    read font (write font m a u) a = u := by
  induction m with
  | nil => by_cases hu : u = background font a <;> simp [write, read, hu]
  | cons c rest ih =>
    obtain ⟨k, w⟩ := c
    obtain ⟨hs, hc⟩ := hm
    rw [List.pairwise_cons] at hs
    have hrest : wf font rest := ⟨hs.2, fun d hd => hc d (by simp [hd])⟩
    simp only [write]
    split_ifs with h1 h2 h3 h4
    · rw [read_of_lt font, h2]
      intro d hd
      rcases List.mem_cons.1 hd with rfl | hd
      · exact h1
      · exact lt_trans h1 (hs.1 d hd)
    · simp [read]
    · subst h3
      rw [read_of_lt font hs.1, h4]
    · simp [read]
    · simp only [read, if_neg h3]
      exact ih hrest

/-- Every cell of a memory after a write is an old one or the one written. -/
theorem mem_write {m : List Host.Cell} {a : Nat} {u : Byte} {c : Host.Cell} (h : c ∈ write font m a u) :
    c ∈ m ∨ c = (a, u) ∧ u ≠ background font a := by
  induction m with
  | nil =>
    simp only [write] at h
    split_ifs at h with hu
    · simp at h
    · exact .inr ⟨by simpa using h, hu⟩
  | cons d rest ih =>
    obtain ⟨k, w⟩ := d
    simp only [write] at h
    split_ifs at h with h1 h2 h3 h4
    · exact .inl h
    · rcases List.mem_cons.1 h with rfl | h
      · exact .inr ⟨rfl, h2⟩
      · exact .inl h
    · exact .inl (by simp [h])
    · rcases List.mem_cons.1 h with rfl | h
      · exact .inr ⟨rfl, h4⟩
      · exact .inl (by simp [h])
    · rcases List.mem_cons.1 h with rfl | h
      · exact .inl (by simp)
      · rcases ih h with h | h
        · exact .inl (by simp [h])
        · exact .inr h

/-- A write inside the address space keeps the canonical form. -/
theorem wf_write {m : List Host.Cell} (hm : wf font m) {a : Nat} (ha : a < Config.memSize) (u : Byte) :
    wf font (write font m a u) := by
  refine ⟨?_, fun c hc => ?_⟩
  · obtain ⟨hs, -⟩ := hm
    induction m with
    | nil => simp only [write]; split_ifs <;> simp
    | cons d rest ih =>
      obtain ⟨k, w⟩ := d
      have hs' := List.pairwise_cons.1 hs
      simp only [write]
      split_ifs with h1 h2 h3 h4
      · exact hs
      · refine List.pairwise_cons.2 ⟨fun c hc => ?_, hs⟩
        rcases List.mem_cons.1 hc with rfl | hc
        · exact h1
        · exact lt_trans h1 (hs'.1 c hc)
      · exact hs'.2
      · exact List.pairwise_cons.2 ⟨by simpa [h3] using hs'.1, hs'.2⟩
      · refine List.pairwise_cons.2 ⟨fun c hc => ?_, ih hs'.2⟩
        rcases mem_write font hc with hc | ⟨rfl, -⟩
        · exact hs'.1 c hc
        · show k < a; omega
  · rcases mem_write font hc with hc | ⟨rfl, hu⟩
    · exact hm.2 c hc
    · exact ⟨ha, hu⟩

/-- A block write leaves every byte outside the block alone. -/
theorem read_writeBytes_of_outside (us : List Byte) (m : List Host.Cell) {a b : Nat}
    (h : b < a ∨ a + us.length ≤ b) : read font (writeBytes font m a us) b = read font m b := by
  induction us generalizing m a with
  | nil => rfl
  | cons u us ih =>
    simp only [List.length_cons] at h
    rw [writeBytes, ih _ (by omega), read_write_ne font _ _ (by omega)]

/-- A block write inside the address space keeps the canonical form. -/
theorem wf_writeBytes (us : List Byte) {m : List Host.Cell} (hm : wf font m) {a : Nat}
    (h : a + us.length ≤ Config.memSize) : wf font (writeBytes font m a us) := by
  induction us generalizing m a with
  | nil => exact hm
  | cons u us ih =>
    simp only [List.length_cons] at h
    exact ih (wf_write font hm (by omega) u) (by omega)

/-- A block write puts its bytes at consecutive addresses, the first lowest. -/
theorem read_writeBytes (us : List Byte) {m : List Host.Cell} (hm : wf font m) {a : Nat}
    (h : a + us.length ≤ Config.memSize) (j : Nat) (hj : j < us.length) :
    read font (writeBytes font m a us) (a + j) = us[j] := by
  induction us generalizing m a j with
  | nil => simp at hj
  | cons u us ih =>
    simp only [List.length_cons] at h hj
    have hw := wf_write font hm (a := a) (by omega) u
    cases j with
    | zero =>
      rw [writeBytes, read_writeBytes_of_outside font us _ (by omega)]
      exact read_write_self font hm a u
    | succ j =>
      have := ih hw (a := a + 1) (by omega) j (by omega)
      rw [writeBytes, show a + (j + 1) = a + 1 + j by omega]
      simpa using this

/-- The cells of an image lie in its range. -/
theorem mem_ofImage {us : List Byte} {a : Nat} {c : Host.Cell} (h : c ∈ ofImage font a us) :
    a ≤ c.1 ∧ c.1 < a + us.length ∧ c.2 ≠ background font c.1 := by
  induction us generalizing a with
  | nil => simp [ofImage] at h
  | cons u us ih =>
    simp only [ofImage] at h
    simp only [List.length_cons]
    split_ifs at h with hu
    · have := ih h; exact ⟨by omega, by omega, this.2.2⟩
    · rcases List.mem_cons.1 h with rfl | h
      · exact ⟨le_refl _, by simp, hu⟩
      · have := ih h; exact ⟨by omega, by omega, this.2.2⟩

/-- An image that fits in memory is placed in canonical form. -/
theorem wf_ofImage (us : List Byte) {a : Nat} (h : a + us.length ≤ Config.memSize) : wf font (ofImage font a us) := by
  refine ⟨?_, fun c hc => ?_⟩
  · clear h
    induction us generalizing a with
    | nil => simp [ofImage]
    | cons u us ih =>
      simp only [ofImage]
      split_ifs with hu
      · exact ih
      · exact List.pairwise_cons.2 ⟨fun c hc => by have := (mem_ofImage font hc).1; show a < c.1; omega, ih⟩
  · have := mem_ofImage font hc
    exact ⟨by omega, this.2.2⟩

/-- Byte `j` of an image lies at `a + j` (R81). -/
theorem read_ofImage (us : List Byte) (a j : Nat) (hj : j < us.length) :
    read font (ofImage font a us) (a + j) = us[j] := by
  induction us generalizing a j with
  | nil => simp at hj
  | cons u us ih =>
    simp only [List.length_cons] at hj
    cases j with
    | zero =>
      simp only [ofImage]
      split_ifs with hu
      · rw [read_of_lt font fun c hc => ?_]
        · simpa using hu.symm
        · have := (mem_ofImage font hc).1; omega
      · simp [read]
    | succ j =>
      have := ih (a + 1) j (by omega)
      rw [show a + 1 + j = a + (j + 1) by omega] at this
      simp only [ofImage]
      split_ifs with hu
      · simpa using this
      · simpa [read] using this

/-- Outside the image every byte is as RESET leaves it. -/
theorem read_ofImage_of_outside (us : List Byte) {a b : Nat} (h : b < a ∨ a + us.length ≤ b) :
    read font (ofImage font a us) b = background font b := by
  induction us generalizing a with
  | nil => rfl
  | cons u us ih =>
    simp only [List.length_cons] at h
    simp only [ofImage]
    split_ifs with hu
    · exact ih (by omega)
    · rw [read, if_neg (by omega)]
      exact ih (by omega)

end Sys2Proof.Machine.Mem
end

