-- ==== Sys2Proof/Laws/State.lean ====
section
/-! SUPPORT. What each named update of the state changes and what it leaves, one lemma per field per update, so that no
later proof unfolds a record update. -/

namespace Sys2Proof.Machine.State

/-! ### `setReg` -/

@[simp] theorem setReg_mem (s : State) (r : Reg) (b : Byte) : (s.setReg r b).mem = s.mem := rfl
@[simp] theorem setReg_v (s : State) (r : Reg) (b : Byte) : (s.setReg r b).v = s.v.set r b := rfl
@[simp] theorem setReg_i (s : State) (r : Reg) (b : Byte) : (s.setReg r b).i = s.i := rfl
@[simp] theorem setReg_pc (s : State) (r : Reg) (b : Byte) : (s.setReg r b).pc = s.pc := rfl
@[simp] theorem setReg_sp (s : State) (r : Reg) (b : Byte) : (s.setReg r b).sp = s.sp := rfl
@[simp] theorem setReg_stk (s : State) (r : Reg) (b : Byte) : (s.setReg r b).stk = s.stk := rfl
@[simp] theorem setReg_dt (s : State) (r : Reg) (b : Byte) : (s.setReg r b).dt = s.dt := rfl
@[simp] theorem setReg_st (s : State) (r : Reg) (b : Byte) : (s.setReg r b).st = s.st := rfl
@[simp] theorem setReg_disp (s : State) (r : Reg) (b : Byte) : (s.setReg r b).disp = s.disp := rfl
@[simp] theorem setReg_key (s : State) (r : Reg) (b : Byte) : (s.setReg r b).key = s.key := rfl
@[simp] theorem setReg_fault (s : State) (r : Reg) (b : Byte) : (s.setReg r b).fault = s.fault := rfl
@[simp] theorem setReg_font (s : State) (r : Reg) (b : Byte) : (s.setReg r b).font = s.font := rfl
@[simp] theorem setReg_draws (s : State) (r : Reg) (b : Byte) : (s.setReg r b).draws = s.draws := rfl
@[simp] theorem setReg_cmds (s : State) (r : Reg) (b : Byte) : (s.setReg r b).cmds = s.cmds := rfl

/-! ### `setI` -/

@[simp] theorem setI_mem (s : State) (a : Word) : (s.setI a).mem = s.mem := rfl
@[simp] theorem setI_v (s : State) (a : Word) : (s.setI a).v = s.v := rfl
@[simp] theorem setI_i (s : State) (a : Word) : (s.setI a).i = a := rfl
@[simp] theorem setI_pc (s : State) (a : Word) : (s.setI a).pc = s.pc := rfl
@[simp] theorem setI_sp (s : State) (a : Word) : (s.setI a).sp = s.sp := rfl
@[simp] theorem setI_stk (s : State) (a : Word) : (s.setI a).stk = s.stk := rfl
@[simp] theorem setI_dt (s : State) (a : Word) : (s.setI a).dt = s.dt := rfl
@[simp] theorem setI_st (s : State) (a : Word) : (s.setI a).st = s.st := rfl
@[simp] theorem setI_disp (s : State) (a : Word) : (s.setI a).disp = s.disp := rfl
@[simp] theorem setI_key (s : State) (a : Word) : (s.setI a).key = s.key := rfl
@[simp] theorem setI_fault (s : State) (a : Word) : (s.setI a).fault = s.fault := rfl
@[simp] theorem setI_font (s : State) (a : Word) : (s.setI a).font = s.font := rfl
@[simp] theorem setI_draws (s : State) (a : Word) : (s.setI a).draws = s.draws := rfl
@[simp] theorem setI_cmds (s : State) (a : Word) : (s.setI a).cmds = s.cmds := rfl

/-! ### `setPc` -/

@[simp] theorem setPc_mem (s : State) (a : Word) : (s.setPc a).mem = s.mem := rfl
@[simp] theorem setPc_v (s : State) (a : Word) : (s.setPc a).v = s.v := rfl
@[simp] theorem setPc_i (s : State) (a : Word) : (s.setPc a).i = s.i := rfl
@[simp] theorem setPc_pc (s : State) (a : Word) : (s.setPc a).pc = a := rfl
@[simp] theorem setPc_sp (s : State) (a : Word) : (s.setPc a).sp = s.sp := rfl
@[simp] theorem setPc_stk (s : State) (a : Word) : (s.setPc a).stk = s.stk := rfl
@[simp] theorem setPc_dt (s : State) (a : Word) : (s.setPc a).dt = s.dt := rfl
@[simp] theorem setPc_st (s : State) (a : Word) : (s.setPc a).st = s.st := rfl
@[simp] theorem setPc_disp (s : State) (a : Word) : (s.setPc a).disp = s.disp := rfl
@[simp] theorem setPc_key (s : State) (a : Word) : (s.setPc a).key = s.key := rfl
@[simp] theorem setPc_fault (s : State) (a : Word) : (s.setPc a).fault = s.fault := rfl
@[simp] theorem setPc_font (s : State) (a : Word) : (s.setPc a).font = s.font := rfl
@[simp] theorem setPc_draws (s : State) (a : Word) : (s.setPc a).draws = s.draws := rfl
@[simp] theorem setPc_cmds (s : State) (a : Word) : (s.setPc a).cmds = s.cmds := rfl

/-! ### `setDt` -/

@[simp] theorem setDt_mem (s : State) (b : Byte) : (s.setDt b).mem = s.mem := rfl
@[simp] theorem setDt_v (s : State) (b : Byte) : (s.setDt b).v = s.v := rfl
@[simp] theorem setDt_i (s : State) (b : Byte) : (s.setDt b).i = s.i := rfl
@[simp] theorem setDt_pc (s : State) (b : Byte) : (s.setDt b).pc = s.pc := rfl
@[simp] theorem setDt_sp (s : State) (b : Byte) : (s.setDt b).sp = s.sp := rfl
@[simp] theorem setDt_stk (s : State) (b : Byte) : (s.setDt b).stk = s.stk := rfl
@[simp] theorem setDt_dt (s : State) (b : Byte) : (s.setDt b).dt = b := rfl
@[simp] theorem setDt_st (s : State) (b : Byte) : (s.setDt b).st = s.st := rfl
@[simp] theorem setDt_disp (s : State) (b : Byte) : (s.setDt b).disp = s.disp := rfl
@[simp] theorem setDt_key (s : State) (b : Byte) : (s.setDt b).key = s.key := rfl
@[simp] theorem setDt_fault (s : State) (b : Byte) : (s.setDt b).fault = s.fault := rfl
@[simp] theorem setDt_font (s : State) (b : Byte) : (s.setDt b).font = s.font := rfl
@[simp] theorem setDt_draws (s : State) (b : Byte) : (s.setDt b).draws = s.draws := rfl
@[simp] theorem setDt_cmds (s : State) (b : Byte) : (s.setDt b).cmds = s.cmds := rfl

/-! ### `setSt` -/

@[simp] theorem setSt_mem (s : State) (b : Byte) : (s.setSt b).mem = s.mem := rfl
@[simp] theorem setSt_v (s : State) (b : Byte) : (s.setSt b).v = s.v := rfl
@[simp] theorem setSt_i (s : State) (b : Byte) : (s.setSt b).i = s.i := rfl
@[simp] theorem setSt_pc (s : State) (b : Byte) : (s.setSt b).pc = s.pc := rfl
@[simp] theorem setSt_sp (s : State) (b : Byte) : (s.setSt b).sp = s.sp := rfl
@[simp] theorem setSt_stk (s : State) (b : Byte) : (s.setSt b).stk = s.stk := rfl
@[simp] theorem setSt_dt (s : State) (b : Byte) : (s.setSt b).dt = s.dt := rfl
@[simp] theorem setSt_st (s : State) (b : Byte) : (s.setSt b).st = b := rfl
@[simp] theorem setSt_disp (s : State) (b : Byte) : (s.setSt b).disp = s.disp := rfl
@[simp] theorem setSt_key (s : State) (b : Byte) : (s.setSt b).key = s.key := rfl
@[simp] theorem setSt_fault (s : State) (b : Byte) : (s.setSt b).fault = s.fault := rfl
@[simp] theorem setSt_font (s : State) (b : Byte) : (s.setSt b).font = s.font := rfl
@[simp] theorem setSt_draws (s : State) (b : Byte) : (s.setSt b).draws = s.draws := rfl
@[simp] theorem setSt_cmds (s : State) (b : Byte) : (s.setSt b).cmds = s.cmds := rfl

/-! ### `setDisp` -/

@[simp] theorem setDisp_mem (s : State) (d : Display) : (s.setDisp d).mem = s.mem := rfl
@[simp] theorem setDisp_v (s : State) (d : Display) : (s.setDisp d).v = s.v := rfl
@[simp] theorem setDisp_i (s : State) (d : Display) : (s.setDisp d).i = s.i := rfl
@[simp] theorem setDisp_pc (s : State) (d : Display) : (s.setDisp d).pc = s.pc := rfl
@[simp] theorem setDisp_sp (s : State) (d : Display) : (s.setDisp d).sp = s.sp := rfl
@[simp] theorem setDisp_stk (s : State) (d : Display) : (s.setDisp d).stk = s.stk := rfl
@[simp] theorem setDisp_dt (s : State) (d : Display) : (s.setDisp d).dt = s.dt := rfl
@[simp] theorem setDisp_st (s : State) (d : Display) : (s.setDisp d).st = s.st := rfl
@[simp] theorem setDisp_disp (s : State) (d : Display) : (s.setDisp d).disp = d := rfl
@[simp] theorem setDisp_key (s : State) (d : Display) : (s.setDisp d).key = s.key := rfl
@[simp] theorem setDisp_fault (s : State) (d : Display) : (s.setDisp d).fault = s.fault := rfl
@[simp] theorem setDisp_font (s : State) (d : Display) : (s.setDisp d).font = s.font := rfl
@[simp] theorem setDisp_draws (s : State) (d : Display) : (s.setDisp d).draws = s.draws := rfl
@[simp] theorem setDisp_cmds (s : State) (d : Display) : (s.setDisp d).cmds = s.cmds := rfl

/-! ### `setKey` -/

@[simp] theorem setKey_mem (s : State) (k : Fin 16) (p : Bool) : (s.setKey k p).mem = s.mem := rfl
@[simp] theorem setKey_v (s : State) (k : Fin 16) (p : Bool) : (s.setKey k p).v = s.v := rfl
@[simp] theorem setKey_i (s : State) (k : Fin 16) (p : Bool) : (s.setKey k p).i = s.i := rfl
@[simp] theorem setKey_pc (s : State) (k : Fin 16) (p : Bool) : (s.setKey k p).pc = s.pc := rfl
@[simp] theorem setKey_sp (s : State) (k : Fin 16) (p : Bool) : (s.setKey k p).sp = s.sp := rfl
@[simp] theorem setKey_stk (s : State) (k : Fin 16) (p : Bool) : (s.setKey k p).stk = s.stk := rfl
@[simp] theorem setKey_dt (s : State) (k : Fin 16) (p : Bool) : (s.setKey k p).dt = s.dt := rfl
@[simp] theorem setKey_st (s : State) (k : Fin 16) (p : Bool) : (s.setKey k p).st = s.st := rfl
@[simp] theorem setKey_disp (s : State) (k : Fin 16) (p : Bool) : (s.setKey k p).disp = s.disp := rfl
@[simp] theorem setKey_key (s : State) (k : Fin 16) (p : Bool) : (s.setKey k p).key = s.key.set k p := rfl
@[simp] theorem setKey_fault (s : State) (k : Fin 16) (p : Bool) : (s.setKey k p).fault = s.fault := rfl
@[simp] theorem setKey_font (s : State) (k : Fin 16) (p : Bool) : (s.setKey k p).font = s.font := rfl
@[simp] theorem setKey_draws (s : State) (k : Fin 16) (p : Bool) : (s.setKey k p).draws = s.draws := rfl
@[simp] theorem setKey_cmds (s : State) (k : Fin 16) (p : Bool) : (s.setKey k p).cmds = s.cmds := rfl

/-! ### `setRegsUpTo` -/

@[simp] theorem setRegsUpTo_mem (s : State) (last : Reg) (f : Reg → Byte) : (s.setRegsUpTo last f).mem = s.mem := by
  simp only [setRegsUpTo]
@[simp] theorem setRegsUpTo_v (s : State) (last : Reg) (f : Reg → Byte) : (s.setRegsUpTo last f).v = Vector.ofFn fun r => if r ≤ last then f r else s.reg r := by
  simp only [setRegsUpTo]
@[simp] theorem setRegsUpTo_i (s : State) (last : Reg) (f : Reg → Byte) : (s.setRegsUpTo last f).i = s.i := by
  simp only [setRegsUpTo]
@[simp] theorem setRegsUpTo_pc (s : State) (last : Reg) (f : Reg → Byte) : (s.setRegsUpTo last f).pc = s.pc := by
  simp only [setRegsUpTo]
@[simp] theorem setRegsUpTo_sp (s : State) (last : Reg) (f : Reg → Byte) : (s.setRegsUpTo last f).sp = s.sp := by
  simp only [setRegsUpTo]
@[simp] theorem setRegsUpTo_stk (s : State) (last : Reg) (f : Reg → Byte) : (s.setRegsUpTo last f).stk = s.stk := by
  simp only [setRegsUpTo]
@[simp] theorem setRegsUpTo_dt (s : State) (last : Reg) (f : Reg → Byte) : (s.setRegsUpTo last f).dt = s.dt := by
  simp only [setRegsUpTo]
@[simp] theorem setRegsUpTo_st (s : State) (last : Reg) (f : Reg → Byte) : (s.setRegsUpTo last f).st = s.st := by
  simp only [setRegsUpTo]
@[simp] theorem setRegsUpTo_disp (s : State) (last : Reg) (f : Reg → Byte) : (s.setRegsUpTo last f).disp = s.disp := by
  simp only [setRegsUpTo]
@[simp] theorem setRegsUpTo_key (s : State) (last : Reg) (f : Reg → Byte) : (s.setRegsUpTo last f).key = s.key := by
  simp only [setRegsUpTo]
@[simp] theorem setRegsUpTo_fault (s : State) (last : Reg) (f : Reg → Byte) : (s.setRegsUpTo last f).fault = s.fault := by
  simp only [setRegsUpTo]
@[simp] theorem setRegsUpTo_font (s : State) (last : Reg) (f : Reg → Byte) : (s.setRegsUpTo last f).font = s.font := by
  simp only [setRegsUpTo]
@[simp] theorem setRegsUpTo_draws (s : State) (last : Reg) (f : Reg → Byte) : (s.setRegsUpTo last f).draws = s.draws := by
  simp only [setRegsUpTo]
@[simp] theorem setRegsUpTo_cmds (s : State) (last : Reg) (f : Reg → Byte) : (s.setRegsUpTo last f).cmds = s.cmds := by
  simp only [setRegsUpTo]

/-! ### `storeBytes` -/

@[simp] theorem storeBytes_mem (s : State) (a : Nat) (us : List Byte) : (s.storeBytes a us).mem = Mem.writeBytes s.font s.mem a us := rfl
@[simp] theorem storeBytes_v (s : State) (a : Nat) (us : List Byte) : (s.storeBytes a us).v = s.v := rfl
@[simp] theorem storeBytes_i (s : State) (a : Nat) (us : List Byte) : (s.storeBytes a us).i = s.i := rfl
@[simp] theorem storeBytes_pc (s : State) (a : Nat) (us : List Byte) : (s.storeBytes a us).pc = s.pc := rfl
@[simp] theorem storeBytes_sp (s : State) (a : Nat) (us : List Byte) : (s.storeBytes a us).sp = s.sp := rfl
@[simp] theorem storeBytes_stk (s : State) (a : Nat) (us : List Byte) : (s.storeBytes a us).stk = s.stk := rfl
@[simp] theorem storeBytes_dt (s : State) (a : Nat) (us : List Byte) : (s.storeBytes a us).dt = s.dt := rfl
@[simp] theorem storeBytes_st (s : State) (a : Nat) (us : List Byte) : (s.storeBytes a us).st = s.st := rfl
@[simp] theorem storeBytes_disp (s : State) (a : Nat) (us : List Byte) : (s.storeBytes a us).disp = s.disp := rfl
@[simp] theorem storeBytes_key (s : State) (a : Nat) (us : List Byte) : (s.storeBytes a us).key = s.key := rfl
@[simp] theorem storeBytes_fault (s : State) (a : Nat) (us : List Byte) : (s.storeBytes a us).fault = s.fault := rfl
@[simp] theorem storeBytes_font (s : State) (a : Nat) (us : List Byte) : (s.storeBytes a us).font = s.font := rfl
@[simp] theorem storeBytes_draws (s : State) (a : Nat) (us : List Byte) : (s.storeBytes a us).draws = s.draws := rfl
@[simp] theorem storeBytes_cmds (s : State) (a : Nat) (us : List Byte) : (s.storeBytes a us).cmds = s.cmds := rfl

/-! ### `advance` -/

@[simp] theorem advance_mem (s : State) : (s.advance).mem = s.mem := rfl
@[simp] theorem advance_v (s : State) : (s.advance).v = s.v := rfl
@[simp] theorem advance_i (s : State) : (s.advance).i = s.i := rfl
@[simp] theorem advance_pc (s : State) : (s.advance).pc = s.pc + 2 := rfl
@[simp] theorem advance_sp (s : State) : (s.advance).sp = s.sp := rfl
@[simp] theorem advance_stk (s : State) : (s.advance).stk = s.stk := rfl
@[simp] theorem advance_dt (s : State) : (s.advance).dt = s.dt := rfl
@[simp] theorem advance_st (s : State) : (s.advance).st = s.st := rfl
@[simp] theorem advance_disp (s : State) : (s.advance).disp = s.disp := rfl
@[simp] theorem advance_key (s : State) : (s.advance).key = s.key := rfl
@[simp] theorem advance_fault (s : State) : (s.advance).fault = s.fault := rfl
@[simp] theorem advance_font (s : State) : (s.advance).font = s.font := rfl
@[simp] theorem advance_draws (s : State) : (s.advance).draws = s.draws := rfl
@[simp] theorem advance_cmds (s : State) : (s.advance).cmds = s.cmds := rfl

/-! ### `tick` -/

@[simp] theorem tick_mem (s : State) : (s.tick).mem = s.mem := rfl
@[simp] theorem tick_v (s : State) : (s.tick).v = s.v := rfl
@[simp] theorem tick_i (s : State) : (s.tick).i = s.i := rfl
@[simp] theorem tick_pc (s : State) : (s.tick).pc = s.pc := rfl
@[simp] theorem tick_sp (s : State) : (s.tick).sp = s.sp := rfl
@[simp] theorem tick_stk (s : State) : (s.tick).stk = s.stk := rfl
@[simp] theorem tick_dt (s : State) : (s.tick).dt = if s.dt = 0 then 0 else s.dt - 1 := rfl
@[simp] theorem tick_st (s : State) : (s.tick).st = if s.st = 0 then 0 else s.st - 1 := rfl
@[simp] theorem tick_disp (s : State) : (s.tick).disp = s.disp := rfl
@[simp] theorem tick_key (s : State) : (s.tick).key = s.key := rfl
@[simp] theorem tick_fault (s : State) : (s.tick).fault = s.fault := rfl
@[simp] theorem tick_font (s : State) : (s.tick).font = s.font := rfl
@[simp] theorem tick_draws (s : State) : (s.tick).draws = s.draws := rfl
@[simp] theorem tick_cmds (s : State) : (s.tick).cmds = s.cmds := rfl

/-! ### `draw` -/

@[simp] theorem draw_mem (s : State) : s.draw.2.mem = s.mem := rfl
@[simp] theorem draw_v (s : State) : s.draw.2.v = s.v := rfl
@[simp] theorem draw_i (s : State) : s.draw.2.i = s.i := rfl
@[simp] theorem draw_pc (s : State) : s.draw.2.pc = s.pc := rfl
@[simp] theorem draw_sp (s : State) : s.draw.2.sp = s.sp := rfl
@[simp] theorem draw_stk (s : State) : s.draw.2.stk = s.stk := rfl
@[simp] theorem draw_dt (s : State) : s.draw.2.dt = s.dt := rfl
@[simp] theorem draw_st (s : State) : s.draw.2.st = s.st := rfl
@[simp] theorem draw_disp (s : State) : s.draw.2.disp = s.disp := rfl
@[simp] theorem draw_key (s : State) : s.draw.2.key = s.key := rfl
@[simp] theorem draw_fault (s : State) : s.draw.2.fault = s.fault := rfl
@[simp] theorem draw_font (s : State) : s.draw.2.font = s.font := rfl
@[simp] theorem draw_draws (s : State) : s.draw.2.draws = s.draws + 1 := rfl
@[simp] theorem draw_cmds (s : State) : s.draw.2.cmds = s.cmds := rfl

/-! ### `skipIf` -/

@[simp] theorem skipIf_mem (s : State) (c : Bool) : (s.skipIf c).mem = s.mem := by
  cases c <;> rfl
@[simp] theorem skipIf_v (s : State) (c : Bool) : (s.skipIf c).v = s.v := by
  cases c <;> rfl
@[simp] theorem skipIf_i (s : State) (c : Bool) : (s.skipIf c).i = s.i := by
  cases c <;> rfl
@[simp] theorem skipIf_pc (s : State) (c : Bool) : (s.skipIf c).pc = if c then s.pc + 2 else s.pc := by
  cases c <;> rfl
@[simp] theorem skipIf_sp (s : State) (c : Bool) : (s.skipIf c).sp = s.sp := by
  cases c <;> rfl
@[simp] theorem skipIf_stk (s : State) (c : Bool) : (s.skipIf c).stk = s.stk := by
  cases c <;> rfl
@[simp] theorem skipIf_dt (s : State) (c : Bool) : (s.skipIf c).dt = s.dt := by
  cases c <;> rfl
@[simp] theorem skipIf_st (s : State) (c : Bool) : (s.skipIf c).st = s.st := by
  cases c <;> rfl
@[simp] theorem skipIf_disp (s : State) (c : Bool) : (s.skipIf c).disp = s.disp := by
  cases c <;> rfl
@[simp] theorem skipIf_key (s : State) (c : Bool) : (s.skipIf c).key = s.key := by
  cases c <;> rfl
@[simp] theorem skipIf_fault (s : State) (c : Bool) : (s.skipIf c).fault = s.fault := by
  cases c <;> rfl
@[simp] theorem skipIf_font (s : State) (c : Bool) : (s.skipIf c).font = s.font := by
  cases c <;> rfl
@[simp] theorem skipIf_draws (s : State) (c : Bool) : (s.skipIf c).draws = s.draws := by
  cases c <;> rfl
@[simp] theorem skipIf_cmds (s : State) (c : Bool) : (s.skipIf c).cmds = s.cmds := by
  cases c <;> rfl

/-! ### `reg` -/

/-- Reading a register after writing one. -/
@[simp] theorem reg_setReg (s : State) (x r : Reg) (b : Byte) :
    (s.setReg x b).reg r = if r = x then b else s.reg r := by
  simp only [reg, setReg_v, Fin.getElem_fin, Vector.getElem_set, Fin.ext_iff, eq_comm]

/-- Reading a register after a block write. -/
@[simp] theorem reg_setRegsUpTo (s : State) (last r : Reg) (f : Reg → Byte) :
    (s.setRegsUpTo last f).reg r = if r ≤ last then f r else s.reg r := by
  simp [reg]

/-- The registers of two states agree when their register files do. -/
theorem reg_congr {s t : State} (h : t.v = s.v) (r : Reg) : t.reg r = s.reg r := by
  simp [reg, h]

/-- A byte of memory depends on the cells and the font alone. -/
theorem byteAt_congr {s t : State} (hm : t.mem = s.mem) (hf : t.font = s.font) (a : Nat) :
    t.byteAt a = s.byteAt a := by
  simp [byteAt, hm, hf]

/-! ### `reg` and `byteAt` under the updates that do not touch them -/

@[simp] theorem reg_setI (s : State) (a : Word) (r : Reg) : (s.setI a).reg r = s.reg r := rfl
@[simp] theorem reg_setPc (s : State) (a : Word) (r : Reg) : (s.setPc a).reg r = s.reg r := rfl
@[simp] theorem reg_setDt (s : State) (b : Byte) (r : Reg) : (s.setDt b).reg r = s.reg r := rfl
@[simp] theorem reg_setSt (s : State) (b : Byte) (r : Reg) : (s.setSt b).reg r = s.reg r := rfl
@[simp] theorem reg_setDisp (s : State) (d : Display) (r : Reg) : (s.setDisp d).reg r = s.reg r := rfl
@[simp] theorem reg_setKey (s : State) (k : Fin 16) (p : Bool) (r : Reg) : (s.setKey k p).reg r = s.reg r := rfl
@[simp] theorem reg_storeBytes (s : State) (a : Nat) (us : List Byte) (r : Reg) : (s.storeBytes a us).reg r = s.reg r := rfl
@[simp] theorem reg_advance (s : State) (r : Reg) : (s.advance).reg r = s.reg r := rfl
@[simp] theorem reg_tick (s : State) (r : Reg) : (s.tick).reg r = s.reg r := rfl
@[simp] theorem reg_draw (s : State) (r : Reg) : s.draw.2.reg r = s.reg r := rfl
@[simp] theorem byteAt_setReg (s : State) (r : Reg) (b : Byte) (n : Nat) : (s.setReg r b).byteAt n = s.byteAt n := rfl
@[simp] theorem byteAt_setRegsUpTo (s : State) (last : Reg) (f : Reg → Byte) (n : Nat) :
    (s.setRegsUpTo last f).byteAt n = s.byteAt n := by
  simp only [byteAt, setRegsUpTo_mem, setRegsUpTo_font]
@[simp] theorem byteAt_setI (s : State) (a : Word) (n : Nat) : (s.setI a).byteAt n = s.byteAt n := rfl
@[simp] theorem byteAt_setPc (s : State) (a : Word) (n : Nat) : (s.setPc a).byteAt n = s.byteAt n := rfl
@[simp] theorem byteAt_setDt (s : State) (b : Byte) (n : Nat) : (s.setDt b).byteAt n = s.byteAt n := rfl
@[simp] theorem byteAt_setSt (s : State) (b : Byte) (n : Nat) : (s.setSt b).byteAt n = s.byteAt n := rfl
@[simp] theorem byteAt_setDisp (s : State) (d : Display) (n : Nat) : (s.setDisp d).byteAt n = s.byteAt n := rfl
@[simp] theorem byteAt_setKey (s : State) (k : Fin 16) (p : Bool) (n : Nat) : (s.setKey k p).byteAt n = s.byteAt n := rfl
@[simp] theorem byteAt_advance (s : State) (n : Nat) : (s.advance).byteAt n = s.byteAt n := rfl
@[simp] theorem byteAt_tick (s : State) (n : Nat) : (s.tick).byteAt n = s.byteAt n := rfl
@[simp] theorem byteAt_draw (s : State) (n : Nat) : s.draw.2.byteAt n = s.byteAt n := rfl

end Sys2Proof.Machine.State
end

