-- ==== Sys2Proof/Laws/Ops.lean ====
section
/-! SUPPORT. What each shared operation can do, said once, so that later proofs cite it and do not unfold the operation. -/

namespace Sys2Proof.Machine

/-- `raise` answers the state with only `FAULT` changed (R244). -/
theorem raise_eq (f : Fault) (s : State) : raise f s = .next { s with fault := f.code } := rfl

/-- No fault's code is 0 (R45). -/
theorem code_ne_zero (f : Fault) : f.code ≠ 0 := by cases f <;> decide

/-- `n` bytes from `a` are in range exactly when there are none or the last address is at most 4095 (R66, R68). -/
theorem inRange_iff (a n : Nat) : inRange a n = true ↔ n = 0 ∨ a + n ≤ 4096 := by
  simp only [inRange, Bool.or_eq_true, beq_iff_eq, decide_eq_true_eq]
  omega

namespace State

/-- `guardRange` does one of two things: the guarded work, or the address fault. -/
theorem guardRange_cases (s : State) (a n : Nat) (go : Result) :
    ((n = 0 ∨ a + n ≤ 4096) ∧ s.guardRange a n go = go) ∨
      ((0 < n ∧ 4096 < a + n) ∧ s.guardRange a n go = raise .addressOutOfRange s) := by
  unfold guardRange
  by_cases h : inRange a n = true
  · exact .inl ⟨(inRange_iff a n).1 h, if_pos h⟩
  · refine .inr ⟨?_, if_neg h⟩
    have := mt (inRange_iff a n).2 h
    omega

/-- In range, `guardRange` runs the guarded work. -/
theorem guardRange_of_inRange (s : State) {a n : Nat} (go : Result) (h : n = 0 ∨ a + n ≤ 4096) :
    s.guardRange a n go = go := if_pos ((inRange_iff a n).2 h)

/-- Out of range, `guardRange` raises the address fault. -/
theorem guardRange_of_outside (s : State) {a n : Nat} (go : Result) (h : 0 < n ∧ 4096 < a + n) :
    s.guardRange a n go = raise .addressOutOfRange s :=
  if_neg fun h' => by have := (inRange_iff a n).1 h'; omega

/-- A push onto a stack that is not full (R38). -/
theorem push_of_lt (s : State) (w : Word) (h : s.sp.val < 16) :
    s.push w = .ok { s with stk := s.stk.set s.sp.val w h, sp := ⟨s.sp.val + 1, by omega⟩ } := dif_pos h

/-- A push onto a full stack (R38). -/
theorem push_of_full (s : State) (w : Word) (h : s.sp.val = 16) : s.push w = .error .stackOverflow :=
  dif_neg (by omega)

/-- A pop from a stack that is not empty (R38). -/
theorem pop_of_pos (s : State) (h : 0 < s.sp.val) :
    s.pop = .ok (s.stk[s.sp.val - 1]'(by omega), { s with sp := ⟨s.sp.val - 1, by omega⟩ }) := dif_pos h

/-- A pop from an empty stack (R38). -/
theorem pop_of_empty (s : State) (h : s.sp.val = 0) : s.pop = .error .stackUnderflow := dif_neg (by omega)

/-- A fetch below 4095 gives the two bytes at `pc` (R121). -/
theorem fetch_of_lt (s : State) (h : s.pc.toNat + 1 < 4096) :
    s.fetch = .ok (wordOfBytes (s.byteAt s.pc.toNat) (s.byteAt (s.pc.toNat + 1))) := if_neg (by omega)

/-- A fetch from 4095 up faults (R121). -/
theorem fetch_of_ge (s : State) (h : 4096 ≤ s.pc.toNat + 1) : s.fetch = .error .addressOutOfRange := if_pos h

/-- A stored block reads back, byte `j` at `a + j`. -/
theorem byteAt_storeBytes (s : State) (hm : Mem.wf s.font s.mem) {a : Nat} (us : List Byte)
    (h : a + us.length ≤ 4096) (j : Nat) (hj : j < us.length) : (s.storeBytes a us).byteAt (a + j) = us[j] :=
  Mem.read_writeBytes s.font us hm h j hj

/-- A store leaves every byte outside the block alone. -/
theorem byteAt_storeBytes_of_outside (s : State) {a b : Nat} (us : List Byte) (h : b < a ∨ a + us.length ≤ b) :
    (s.storeBytes a us).byteAt b = s.byteAt b := Mem.read_writeBytes_of_outside s.font us s.mem h

/-- `bcdDigits` gives three bytes. -/
@[simp] theorem length_bcdDigits (b : Byte) : (bcdDigits b).length = 3 := rfl

/-- `regsUpTo` gives `last + 1` bytes. -/
@[simp] theorem length_regsUpTo (s : State) (last : Reg) : (s.regsUpTo last).length = last.val + 1 := by
  simp [regsUpTo]

/-- Byte `j` of `regsUpTo` is register `j`. -/
@[simp] theorem getElem_regsUpTo (s : State) (last : Reg) (j : Nat) (hj : j < (s.regsUpTo last).length) :
    (s.regsUpTo last)[j] = s.reg ⟨j, by simp at hj; omega⟩ := by
  simp [regsUpTo]

/-- `loadBytes` gives `n` bytes. -/
@[simp] theorem length_loadBytes (s : State) (a n : Nat) : (s.loadBytes a n).length = n := by
  simp [loadBytes]

/-- Byte `j` of `loadBytes` is the byte at `a + j`. -/
@[simp] theorem getElem_loadBytes (s : State) (a n j : Nat) (hj : j < (s.loadBytes a n).length) :
    (s.loadBytes a n)[j] = s.byteAt (a + j) := by
  simp [loadBytes]

/-- The lowest pressed key is pressed and every key below it is not (R218). -/
theorem lowestKey_eq_some {s : State} {k : Fin 16} (h : s.lowestKey = some k) :
    s.key[k] = true ∧ ∀ j : Fin 16, j < k → s.key[j] = false := by
  unfold lowestKey at h
  refine ⟨by simpa using List.find?_some h, fun j hj => ?_⟩
  obtain ⟨-, as, bs, hsplit, has⟩ := List.find?_eq_some_iff_append.1 h
  have hpw : (as ++ k :: bs).Pairwise (· < ·) := hsplit ▸ List.pairwise_lt_finRange 16
  have hj' : j ∈ as ++ k :: bs := hsplit ▸ List.mem_finRange j
  rcases List.mem_append.1 hj' with hj' | hj'
  · simpa using has j hj'
  · have hkb := List.pairwise_cons.1 (List.pairwise_append.1 hpw).2.1
    rcases List.mem_cons.1 hj' with rfl | hj'
    · exact absurd hj (lt_irrefl _)
    · exact absurd hj (not_lt.2 (le_of_lt (hkb.1 j hj')))

/-- No lowest key means no key is pressed (R218). -/
theorem lowestKey_eq_none {s : State} (h : s.lowestKey = none) (k : Fin 16) : s.key[k] = false := by
  simpa using List.find?_eq_none.1 h k (List.mem_finRange k)

end State

/-- A cell of a sprite byte placed in a row: bit `7 − c` of the byte at column `x0 + c`, nothing elsewhere (R200). -/
theorem getMsbD_rowMask (x0 : Nat) (b : Byte) (x : Fin 64) :
    (rowMask x0 b).getMsbD x = (decide (x0 ≤ x ∧ x < x0 + 8) && b.getLsbD (7 - (x - x0))) := by
  have hx := x.isLt
  simp only [rowMask, BitVec.getMsbD_eq_getLsbD, BitVec.getLsbD_ushiftRight, BitVec.getLsbD_shiftLeft,
    BitVec.getLsbD_setWidth]
  by_cases h : x0 ≤ x.val ∧ x.val < x0 + 8
  · have e : x0 + (64 - 1 - x.val) - 56 = 7 - (x.val - x0) := by omega
    have h1 : x0 + (64 - 1 - x.val) < 64 := by omega
    have h2 : ¬x0 + (64 - 1 - x.val) < 56 := by omega
    have h3 : 7 - (x.val - x0) < 64 := by omega
    simp only [e, h, h1, h2, h3, hx, decide_true, decide_false, Bool.not_false, Bool.true_and, and_self]
  · rw [decide_eq_false h, Bool.false_and]
    by_cases h1 : x0 + (64 - 1 - x.val) < 56 ∨ 64 ≤ x0 + (64 - 1 - x.val)
    · rcases h1 with h1 | h1
      · simp [h1]
      · simp [Nat.not_lt.2 h1]
    · omega

/-- A cell of the placed sprite (R203). -/
theorem getMsbD_spriteMask (x0 y0 : Nat) (sprite : List Byte) (y : Nat) (x : Fin 64) :
    (spriteMask x0 y0 sprite y).getMsbD x =
      (decide (y0 ≤ y ∧ y < y0 + sprite.length ∧ x0 ≤ x ∧ x < x0 + 8) &&
        (sprite.getD (y - y0) 0).getLsbD (7 - (x - x0))) := by
  unfold spriteMask
  by_cases h : y0 ≤ y ∧ y < y0 + sprite.length
  · rw [if_pos h, getMsbD_rowMask]; simp [h]
  · have : ¬(y0 ≤ y ∧ y < y0 + sprite.length ∧ x0 ≤ x.val ∧ x.val < x0 + 8) := fun h' => h ⟨h'.1, h'.2.1⟩
    rw [if_neg h]; simp only [this]; simp

/-- A cell of the blended display (R203). -/
@[simp] theorem cell_blend (d : Display) (x0 y0 : Nat) (sprite : List Byte) (y : Fin 32) (x : Fin 64) :
    (blend d x0 y0 sprite).cell y x = (d.cell y x ^^ (spriteMask x0 y0 sprite y).getMsbD x) := by
  simp [blend, Display.cell]

/-- Two displays with the same cells are equal. -/
theorem display_ext {d e : Display} (h : ∀ y x, d.cell y x = e.cell y x) : d = e := by
  apply Vector.ext
  intro y hy
  apply BitVec.eq_of_getMsbD_eq
  intro x hx
  exact h ⟨y, hy⟩ ⟨x, hx⟩

/-- Every cell of the blank display is 0 (R201). -/
@[simp] theorem cell_blank (y : Fin 32) (x : Fin 64) : Display.blank.cell y x = false := by
  simp [Display.blank, Display.cell]

/-- A collision is a set cell under a set sprite bit (R203). -/
theorem collides_iff (d : Display) (x0 y0 : Nat) (sprite : List Byte) :
    collides d x0 y0 sprite = true ↔
      ∃ (y : Fin 32) (x : Fin 64), d.cell y x = true ∧ (spriteMask x0 y0 sprite y).getMsbD x = true := by
  have row (u w : BitVec 64) : (u &&& w != 0) = true ↔ ∃ x : Fin 64, u.getMsbD x = true ∧ w.getMsbD x = true := by
    constructor
    · intro h
      by_contra hx
      push Not at hx
      refine absurd (BitVec.eq_of_getMsbD_eq fun i hi => ?_) (by simpa using h)
      have := hx ⟨i, hi⟩
      cases hu : u.getMsbD i <;> simp_all
    · rintro ⟨x, hu, hw⟩
      have : (u &&& w).getMsbD x = true := by simp [hu, hw]
      simp only [bne_iff_ne, ne_eq]
      intro h0
      simp [h0] at this
  simp only [collides, List.any_eq_true, List.mem_finRange, true_and, row]
  rfl

/-- Everything one step can do: one command, the head of the port or STEP. -/
theorem step_cases (s : State) :
    (s.cmds = [] ∧ step s = stepCommand s) ∨
      ∃ c rest, s.cmds = c :: rest ∧ step s = runCommand c { s with cmds := rest } := by
  unfold step runNext State.nextCommand
  cases h : s.cmds with
  | nil => exact .inl ⟨rfl, rfl⟩
  | cons c rest => exact .inr ⟨c, rest, rfl, rfl⟩

/-- Everything STEP can do: nothing while halted, the fetch fault, or the instruction at `pc` (R120). -/
theorem stepCommand_cases (s : State) :
    (s.fault ≠ 0 ∧ stepCommand s = .next s) ∨
      (s.fault = 0 ∧ 4096 ≤ s.pc.toNat + 1 ∧ stepCommand s = .next { s with fault := 1 }) ∨
      (s.fault = 0 ∧ s.pc.toNat + 1 < 4096 ∧
        stepCommand s =
          exec (decodeWord (wordOfBytes (s.byteAt s.pc.toNat) (s.byteAt (s.pc.toNat + 1)))) s.advance) := by
  by_cases hf : s.fault = 0
  · have hh : s.halted = false := by simp [State.halted, hf]
    by_cases hp : 4096 ≤ s.pc.toNat + 1
    · exact .inr (.inl ⟨hf, hp, by simp [stepCommand, hh, s.fetch_of_ge hp, raise_eq, Fault.code]⟩)
    · exact .inr (.inr ⟨hf, by omega, by simp [stepCommand, hh, s.fetch_of_lt (by omega)]⟩)
  · have hh : s.halted = true := by simpa [State.halted] using hf
    exact .inl ⟨hf, by simp [stepCommand, hh]⟩

end Sys2Proof.Machine
end

