-- ==== Sys2Proof/Laws/Exec.lean ====
section
/-! SUPPORT. What the meanings that can take more than one path can do, said once: if the meaning answers `next t`, then
`t` is one of these. Every other meaning answers one state, by definition. -/

namespace Sys2Proof.Machine

namespace State

/-- After a block is stored from `I` up, an address holds the byte the block puts there, or what it held before. -/
theorem byteAt_storeBytes_eq_byteUnder (s : State) (hm : Mem.wf s.font s.mem) (us : List Byte)
    (h : s.i.toNat + us.length ≤ 4096) (a : Nat) : (s.storeBytes s.i.toNat us).byteAt a = s.byteUnder us a := by
  unfold byteUnder
  by_cases hc : s.i.toNat ≤ a ∧ a < s.i.toNat + us.length
  · obtain ⟨j, rfl⟩ := Nat.exists_eq_add_of_le hc.1
    rw [byteAt_storeBytes s hm us h j (by omega), if_pos hc.1, Nat.add_sub_cancel_left,
      List.getD_eq_getElem _ _ (by omega)]
  · rw [byteAt_storeBytes_of_outside s us (by omega)]
    split
    · rw [List.getD_eq_default _ _ (by omega)]
    · rfl

/-! ### `drawSprite` -/

@[simp] theorem drawSprite_mem (s : State) (x y : Reg) (n : Nibble) : (s.drawSprite x y n).mem = s.mem := by
  simp only [drawSprite, setReg_mem, setDisp_mem]
@[simp] theorem drawSprite_i (s : State) (x y : Reg) (n : Nibble) : (s.drawSprite x y n).i = s.i := by
  simp only [drawSprite, setReg_i, setDisp_i]
@[simp] theorem drawSprite_pc (s : State) (x y : Reg) (n : Nibble) : (s.drawSprite x y n).pc = s.pc := by
  simp only [drawSprite, setReg_pc, setDisp_pc]
@[simp] theorem drawSprite_sp (s : State) (x y : Reg) (n : Nibble) : (s.drawSprite x y n).sp = s.sp := by
  simp only [drawSprite, setReg_sp, setDisp_sp]
@[simp] theorem drawSprite_stk (s : State) (x y : Reg) (n : Nibble) : (s.drawSprite x y n).stk = s.stk := by
  simp only [drawSprite, setReg_stk, setDisp_stk]
@[simp] theorem drawSprite_dt (s : State) (x y : Reg) (n : Nibble) : (s.drawSprite x y n).dt = s.dt := by
  simp only [drawSprite, setReg_dt, setDisp_dt]
@[simp] theorem drawSprite_st (s : State) (x y : Reg) (n : Nibble) : (s.drawSprite x y n).st = s.st := by
  simp only [drawSprite, setReg_st, setDisp_st]
@[simp] theorem drawSprite_key (s : State) (x y : Reg) (n : Nibble) : (s.drawSprite x y n).key = s.key := by
  simp only [drawSprite, setReg_key, setDisp_key]
@[simp] theorem drawSprite_fault (s : State) (x y : Reg) (n : Nibble) : (s.drawSprite x y n).fault = s.fault := by
  simp only [drawSprite, setReg_fault, setDisp_fault]
@[simp] theorem drawSprite_font (s : State) (x y : Reg) (n : Nibble) : (s.drawSprite x y n).font = s.font := by
  simp only [drawSprite, setReg_font, setDisp_font]
@[simp] theorem drawSprite_draws (s : State) (x y : Reg) (n : Nibble) : (s.drawSprite x y n).draws = s.draws := by
  simp only [drawSprite, setReg_draws, setDisp_draws]
@[simp] theorem drawSprite_cmds (s : State) (x y : Reg) (n : Nibble) : (s.drawSprite x y n).cmds = s.cmds := by
  simp only [drawSprite, setReg_cmds, setDisp_cmds]

/-- The display after a draw. -/
theorem drawSprite_disp (s : State) (x y : Reg) (n : Nibble) : (s.drawSprite x y n).disp =
    blend s.disp (originX (s.reg x)) (originY (s.reg y)) (s.spriteRows y n) := by
  simp only [drawSprite, setReg_disp, setDisp_disp]

/-- The registers after a draw: `VF` is the collision flag. -/
theorem reg_drawSprite (s : State) (x y r : Reg) (n : Nibble) : (s.drawSprite x y n).reg r =
    if r = vf then flagByte (collides s.disp (originX (s.reg x)) (originY (s.reg y)) (s.spriteRows y n))
    else s.reg r := by
  simp [drawSprite]

/-- Memory after a draw. -/
@[simp] theorem byteAt_drawSprite (s : State) (x y : Reg) (n : Nibble) (a : Nat) :
    (s.drawSprite x y n).byteAt a = s.byteAt a :=
  byteAt_congr (drawSprite_mem s x y n) (drawSprite_font s x y n) a

/-- The sprite rows read are the visible ones. -/
@[simp] theorem length_spriteRows (s : State) (y : Reg) (n : Nibble) :
    (s.spriteRows y n).length = visibleRows n (originY (s.reg y)) := by
  simp [spriteRows]

/-- Row `r` of the sprite is the byte at `I + r` (R200). -/
@[simp] theorem getElem_spriteRows (s : State) (y : Reg) (n : Nibble) (r : Nat) (hr : r < (s.spriteRows y n).length) :
    (s.spriteRows y n)[r] = s.byteAt (s.i.toNat + r) := by
  simp [spriteRows]

/-- A guarded update either is made, its range being in memory, or faults, its range not being. -/
theorem guardRange_next {s u t : State} {a n : Nat} (h : s.guardRange a n (.next u) = .next t) :
    (t = u ∧ (n = 0 ∨ a + n ≤ 4096)) ∨ (t = { s with fault := 1 } ∧ 0 < n ∧ 4096 < a + n) := by
  rcases s.guardRange_cases a n (.next u) with ⟨hr, he⟩ | ⟨hr, he⟩
  · rw [he] at h
    exact .inl ⟨(Host.Outcome.next.inj h).symm, hr⟩
  · rw [he, raise_eq] at h
    exact .inr ⟨(Host.Outcome.next.inj h).symm, hr⟩

end State

/-- RET pops, or faults on an empty stack (R140). -/
theorem execRet_next {s t : State} (h : execRet s = .next t) :
    (∃ hp : 0 < s.sp.val, t = { s with sp := ⟨s.sp.val - 1, by omega⟩, pc := s.stk[s.sp.val - 1]'(by omega) }) ∨
      (s.sp.val = 0 ∧ t = { s with fault := 3 }) := by
  unfold execRet at h
  by_cases hp : 0 < s.sp.val
  · rw [s.pop_of_pos hp] at h
    exact .inl ⟨hp, (Host.Outcome.next.inj h).symm⟩
  · have h0 : s.sp.val = 0 := by omega
    rw [s.pop_of_empty h0] at h
    exact .inr ⟨h0, (Host.Outcome.next.inj h).symm⟩

/-- CALL pushes and jumps, or faults on a full stack (R142). -/
theorem execCall_next {s t : State} {nnn : BitVec 12} (h : execCall nnn s = .next t) :
    (∃ hp : s.sp.val < 16, t = { s with
        stk := s.stk.set s.sp.val s.pc hp, sp := ⟨s.sp.val + 1, by omega⟩, pc := addressOperand nnn }) ∨
      (s.sp.val = 16 ∧ t = { s with fault := 2 }) := by
  unfold execCall at h
  by_cases hp : s.sp.val < 16
  · rw [s.push_of_lt s.pc hp] at h
    exact .inl ⟨hp, (Host.Outcome.next.inj h).symm⟩
  · have h16 : s.sp.val = 16 := by omega
    rw [s.push_of_full s.pc h16] at h
    exact .inr ⟨h16, (Host.Outcome.next.inj h).symm⟩

/-- The key wait takes the lowest pressed key, or goes back to itself (R218). -/
theorem execLdVxK_next {s t : State} {x : Reg} (h : execLdVxK x s = .next t) :
    (∃ k, s.lowestKey = some k ∧ t = s.setReg x (BitVec.ofNat 8 k.val)) ∨
      (s.lowestKey = none ∧ t = s.setPc (s.pc - 2)) := by
  unfold execLdVxK at h
  cases hk : s.lowestKey with
  | some k => rw [hk] at h; exact .inl ⟨k, rfl, (Host.Outcome.next.inj h).symm⟩
  | none => rw [hk] at h; exact .inr ⟨rfl, (Host.Outcome.next.inj h).symm⟩

end Sys2Proof.Machine
end

