-- ==== Sys2Proof/Laws/PerInstr.lean ====
section
/-! SUPPORT. For every instruction: its word is one that its row of the opcode map matches (30_encoding.md R15, R94,
R97). -/

namespace Sys2Proof.Laws.Pattern

/-- The word of an instruction is matched by the instruction's own row of the opcode map. -/
def Statement (i : Instr) : Prop := ∀ r, i.row = some r → r.hits (encode i) = true

/-- A row with mask 0xF000 matches exactly the words of its class. -/
theorem hits_class (m : String) (c : Fin 16) (w : Word) :
    Row.hits ⟨m, 0xf000#16, BitVec.ofNat 16 (c * 0x1000)⟩ w = true ↔ fieldClass w = c := by
  have h : w &&& 0xf000#16 = (w >>> 12) <<< 12 := by
    apply BitVec.eq_of_getLsbD_eq; intro i hi
    interval_cases i <;> simp
  rw [Row.hits, beq_iff_eq, h, ← BitVec.toNat_inj, Fin.ext_iff]
  simp [fieldClass, Nat.shiftRight_eq_div_pow, Nat.shiftLeft_eq]
  omega

/-- A row with mask 0xF00F matches exactly the words of its class and low nibble. -/
theorem hits_class_n (m : String) (c : Fin 16) (n : Nibble) (w : Word) :
    Row.hits ⟨m, 0xf00f#16, BitVec.ofNat 16 (c * 0x1000 + n.toNat)⟩ w = true ↔ fieldClass w = c ∧ fieldN w = n := by
  have h : w &&& 0xf00f#16 = (w >>> 12) <<< 12 + (w <<< 12) >>> 12 := by
    rw [BitVec.add_eq_or_of_and_eq_zero]
    · apply BitVec.eq_of_getLsbD_eq; intro i hi
      interval_cases i <;> simp
    · apply BitVec.eq_of_getLsbD_eq; intro i hi
      interval_cases i <;> simp
  rw [Row.hits, beq_iff_eq, h, ← BitVec.toNat_inj, Fin.ext_iff, ← BitVec.toNat_inj]
  simp [fieldClass, fieldN, Nat.shiftRight_eq_div_pow, Nat.shiftLeft_eq]
  omega

/-- A row with mask 0xF0FF matches exactly the words of its class and low byte. -/
theorem hits_class_nn (m : String) (c : Fin 16) (nn : Byte) (w : Word) :
    Row.hits ⟨m, 0xf0ff#16, BitVec.ofNat 16 (c * 0x1000 + nn.toNat)⟩ w = true ↔
      fieldClass w = c ∧ fieldNN w = nn := by
  have h : w &&& 0xf0ff#16 = (w >>> 12) <<< 12 + (w <<< 8) >>> 8 := by
    rw [BitVec.add_eq_or_of_and_eq_zero]
    · apply BitVec.eq_of_getLsbD_eq; intro i hi
      interval_cases i <;> simp
    · apply BitVec.eq_of_getLsbD_eq; intro i hi
      interval_cases i <;> simp
  rw [Row.hits, beq_iff_eq, h, ← BitVec.toNat_inj, Fin.ext_iff, ← BitVec.toNat_inj]
  simp [fieldClass, fieldNN, Nat.shiftRight_eq_div_pow, Nat.shiftLeft_eq]
  omega

theorem cls : Statement .cls := by
  intro r hr
  obtain rfl : _ = r := Option.some.inj hr
  decide

theorem ret : Statement .ret := by
  intro r hr
  obtain rfl : _ = r := Option.some.inj hr
  decide

theorem jp (nnn : BitVec 12) : Statement (.jp nnn) := by
  intro r hr
  obtain rfl : _ = r := Option.some.inj hr
  exact (hits_class _ 1 _).2 (by simp [encode])

theorem call (nnn : BitVec 12) : Statement (.call nnn) := by
  intro r hr
  obtain rfl : _ = r := Option.some.inj hr
  exact (hits_class _ 2 _).2 (by simp [encode])

theorem seImm (x : Reg) (nn : Byte) : Statement (.seImm x nn) := by
  intro r hr
  obtain rfl : _ = r := Option.some.inj hr
  exact (hits_class _ 3 _).2 (by simp [encode])

theorem sneImm (x : Reg) (nn : Byte) : Statement (.sneImm x nn) := by
  intro r hr
  obtain rfl : _ = r := Option.some.inj hr
  exact (hits_class _ 4 _).2 (by simp [encode])

theorem seReg (x y : Reg) : Statement (.seReg x y) := by
  intro r hr
  obtain rfl : _ = r := Option.some.inj hr
  exact (hits_class_n _ 5 0 _).2 (by simp [encode])

theorem ldImm (x : Reg) (nn : Byte) : Statement (.ldImm x nn) := by
  intro r hr
  obtain rfl : _ = r := Option.some.inj hr
  exact (hits_class _ 6 _).2 (by simp [encode])

theorem addImm (x : Reg) (nn : Byte) : Statement (.addImm x nn) := by
  intro r hr
  obtain rfl : _ = r := Option.some.inj hr
  exact (hits_class _ 7 _).2 (by simp [encode])

theorem ldReg (x y : Reg) : Statement (.ldReg x y) := by
  intro r hr
  obtain rfl : _ = r := Option.some.inj hr
  exact (hits_class_n _ 8 0 _).2 (by simp [encode])

theorem orReg (x y : Reg) : Statement (.orReg x y) := by
  intro r hr
  obtain rfl : _ = r := Option.some.inj hr
  exact (hits_class_n _ 8 1 _).2 (by simp [encode])

theorem andReg (x y : Reg) : Statement (.andReg x y) := by
  intro r hr
  obtain rfl : _ = r := Option.some.inj hr
  exact (hits_class_n _ 8 2 _).2 (by simp [encode])

theorem xorReg (x y : Reg) : Statement (.xorReg x y) := by
  intro r hr
  obtain rfl : _ = r := Option.some.inj hr
  exact (hits_class_n _ 8 3 _).2 (by simp [encode])

theorem addReg (x y : Reg) : Statement (.addReg x y) := by
  intro r hr
  obtain rfl : _ = r := Option.some.inj hr
  exact (hits_class_n _ 8 4 _).2 (by simp [encode])

theorem subReg (x y : Reg) : Statement (.subReg x y) := by
  intro r hr
  obtain rfl : _ = r := Option.some.inj hr
  exact (hits_class_n _ 8 5 _).2 (by simp [encode])

theorem shr (x y : Reg) : Statement (.shr x y) := by
  intro r hr
  obtain rfl : _ = r := Option.some.inj hr
  exact (hits_class_n _ 8 6 _).2 (by simp [encode])

theorem subn (x y : Reg) : Statement (.subn x y) := by
  intro r hr
  obtain rfl : _ = r := Option.some.inj hr
  exact (hits_class_n _ 8 7 _).2 (by simp [encode])

theorem shl (x y : Reg) : Statement (.shl x y) := by
  intro r hr
  obtain rfl : _ = r := Option.some.inj hr
  exact (hits_class_n _ 8 14 _).2 (by simp [encode])

theorem sneReg (x y : Reg) : Statement (.sneReg x y) := by
  intro r hr
  obtain rfl : _ = r := Option.some.inj hr
  exact (hits_class_n _ 9 0 _).2 (by simp [encode])

theorem ldI (nnn : BitVec 12) : Statement (.ldI nnn) := by
  intro r hr
  obtain rfl : _ = r := Option.some.inj hr
  exact (hits_class _ 10 _).2 (by simp [encode])

theorem jpV0 (nnn : BitVec 12) : Statement (.jpV0 nnn) := by
  intro r hr
  obtain rfl : _ = r := Option.some.inj hr
  exact (hits_class _ 11 _).2 (by simp [encode])

theorem rnd (x : Reg) (nn : Byte) : Statement (.rnd x nn) := by
  intro r hr
  obtain rfl : _ = r := Option.some.inj hr
  exact (hits_class _ 12 _).2 (by simp [encode])

theorem drw (x y : Reg) (n : Nibble) : Statement (.drw x y n) := by
  intro r hr
  obtain rfl : _ = r := Option.some.inj hr
  exact (hits_class _ 13 _).2 (by simp [encode])

theorem skp (x : Reg) : Statement (.skp x) := by
  intro r hr
  obtain rfl : _ = r := Option.some.inj hr
  exact (hits_class_nn _ 14 0x9e _).2 (by simp [encode])

theorem sknp (x : Reg) : Statement (.sknp x) := by
  intro r hr
  obtain rfl : _ = r := Option.some.inj hr
  exact (hits_class_nn _ 14 0xa1 _).2 (by simp [encode])

theorem ldVxDt (x : Reg) : Statement (.ldVxDt x) := by
  intro r hr
  obtain rfl : _ = r := Option.some.inj hr
  exact (hits_class_nn _ 15 0x7 _).2 (by simp [encode])

theorem ldVxK (x : Reg) : Statement (.ldVxK x) := by
  intro r hr
  obtain rfl : _ = r := Option.some.inj hr
  exact (hits_class_nn _ 15 0xa _).2 (by simp [encode])

theorem ldDtVx (x : Reg) : Statement (.ldDtVx x) := by
  intro r hr
  obtain rfl : _ = r := Option.some.inj hr
  exact (hits_class_nn _ 15 0x15 _).2 (by simp [encode])

theorem ldStVx (x : Reg) : Statement (.ldStVx x) := by
  intro r hr
  obtain rfl : _ = r := Option.some.inj hr
  exact (hits_class_nn _ 15 0x18 _).2 (by simp [encode])

theorem addI (x : Reg) : Statement (.addI x) := by
  intro r hr
  obtain rfl : _ = r := Option.some.inj hr
  exact (hits_class_nn _ 15 0x1e _).2 (by simp [encode])

theorem ldF (x : Reg) : Statement (.ldF x) := by
  intro r hr
  obtain rfl : _ = r := Option.some.inj hr
  exact (hits_class_nn _ 15 0x29 _).2 (by simp [encode])

theorem ldB (x : Reg) : Statement (.ldB x) := by
  intro r hr
  obtain rfl : _ = r := Option.some.inj hr
  exact (hits_class_nn _ 15 0x33 _).2 (by simp [encode])

theorem ldMemVx (x : Reg) : Statement (.ldMemVx x) := by
  intro r hr
  obtain rfl : _ = r := Option.some.inj hr
  exact (hits_class_nn _ 15 0x55 _).2 (by simp [encode])

theorem ldVxMem (x : Reg) : Statement (.ldVxMem x) := by
  intro r hr
  obtain rfl : _ = r := Option.some.inj hr
  exact (hits_class_nn _ 15 0x65 _).2 (by simp [encode])

theorem unrec (w : Word) : Statement (.unrec w) := by
  intro r hr
  simp [Instr.row, Instr.rowIndex] at hr

end Sys2Proof.Laws.Pattern
end

