-- ==== Sys2Proof/Tests/Slice0.lean ====
section
/-! SUPPORT. Tests. Words are written out from the encodings of 30_encoding.md R93, R97; expected results are those of
95_test_vectors.md (its S and T ids are named) or of the examples of the instruction's own rule. -/

namespace Sys2Proof.Tests

open Sys2Proof Sys2Proof.Machine

/-- Whether an answer is a next state with a property. -/
def gives (r : Result) (p : State → Bool) : Bool :=
  match r with
  | .next t => p t
  | .fault _ => false
  | .refused _ => false

/-- One step with the word placed at `pc` of a state made from reset. -/
def oneStep (w : Nat) (s : State) : Result := step (s.withFetchWord 16 w)

/-- Reset with some registers set. -/
def withRegs (l : List (Reg × Byte)) : State := l.foldl (fun s p => s.setReg p.1 p.2) State.reset

/-! ## WellFormed -/

/-- `unrec` of a word that a row matches is no well-formed instruction: 0x00E0 is CLS. -/
theorem test_wellFormed_refuses_known_word : ¬(Instr.unrec 0x00E0).WellFormed := by decide

/-- A word of no row is well formed as `unrec`. -/
theorem test_wellFormed_admits_unknown_word : (Instr.unrec 0x5121).WellFormed := by decide

/-! ## Decode: one word per constructor, written out bit by bit -/

theorem test_decode_class_0_to_4 :
    decodeTableWord 16 0b0000000011100000 = some .cls ∧
    decodeTableWord 16 0b0000000011101110 = some .ret ∧
    decodeTableWord 16 0b0001001000110100 = some (.jp 0x234) ∧
    decodeTableWord 16 0b0010001000010000 = some (.call 0x210) ∧
    decodeTableWord 16 0b0011001100101010 = some (.seImm 3 0x2A) ∧
    decodeTableWord 16 0b0100001100000000 = some (.sneImm 3 0x00) := by decide

theorem test_decode_class_5_to_7_9 :
    decodeTableWord 16 0b0101000100100000 = some (.seReg 1 2) ∧
    decodeTableWord 16 0b0110101000101111 = some (.ldImm 0xA 0x2F) ∧
    decodeTableWord 16 0b0111000011111111 = some (.addImm 0 0xFF) ∧
    decodeTableWord 16 0b1001000100100000 = some (.sneReg 1 2) := by decide

theorem test_decode_class_8 :
    decodeTableWord 16 0b1000000100100000 = some (.ldReg 1 2) ∧
    decodeTableWord 16 0b1000000100100001 = some (.orReg 1 2) ∧
    decodeTableWord 16 0b1000000100100010 = some (.andReg 1 2) ∧
    decodeTableWord 16 0b1000000100100011 = some (.xorReg 1 2) ∧
    decodeTableWord 16 0b1000000100100100 = some (.addReg 1 2) ∧
    decodeTableWord 16 0b1000000100100101 = some (.subReg 1 2) ∧
    decodeTableWord 16 0b1000000100100110 = some (.shr 1 2) ∧
    decodeTableWord 16 0b1000000100100111 = some (.subn 1 2) ∧
    decodeTableWord 16 0b1000000100101110 = some (.shl 1 2) := by decide

theorem test_decode_class_A_to_E :
    decodeTableWord 16 0b1010001100000000 = some (.ldI 0x300) ∧
    decodeTableWord 16 0b1011001100000000 = some (.jpV0 0x300) ∧
    decodeTableWord 16 0b1100001100001111 = some (.rnd 3 0x0F) ∧
    decodeTableWord 16 0b1101000100100011 = some (.drw 1 2 3) ∧
    decodeTableWord 16 0b1110001010011110 = some (.skp 2) ∧
    decodeTableWord 16 0b1110001010100001 = some (.sknp 2) := by decide

theorem test_decode_class_F :
    decodeTableWord 16 0b1111010100000111 = some (.ldVxDt 5) ∧
    decodeTableWord 16 0b1111010100001010 = some (.ldVxK 5) ∧
    decodeTableWord 16 0b1111010100010101 = some (.ldDtVx 5) ∧
    decodeTableWord 16 0b1111011000011000 = some (.ldStVx 6) ∧
    decodeTableWord 16 0b1111001000011110 = some (.addI 2) ∧
    decodeTableWord 16 0b1111010000101001 = some (.ldF 4) ∧
    decodeTableWord 16 0b1111000000110011 = some (.ldB 0) ∧
    decodeTableWord 16 0b1111001001010101 = some (.ldMemVx 2) ∧
    decodeTableWord 16 0b1111001001100101 = some (.ldVxMem 2) := by decide

/-- The words of T2 are unrecognised (R95, R96, R102). -/
theorem test_decode_near_misses :
    [0x5121, 0x9AB3, 0x01E0, 0x0123, 0x8128, 0x812F, 0xE100, 0xF000, 0xFFFF, 0x0000].all
      (fun w => decodeWord (BitVec.ofNat 16 w) == .unrec (BitVec.ofNat 16 w)) = true := by decide

/-- Fewer than two bytes hold no instruction (R90). -/
theorem test_decode_refuses_one_byte : decode [0x60] = .error .truncated := by rfl

/-- Bytes are big-endian and the rest is handed back (R69). -/
theorem test_decode_bytes : decode [0x81, 0x24, 0x60] = .ok (.addReg 1 2, [0x60]) := by rfl

/-! ## STEP -/

/-- T1: 0x0000 is a no-op. -/
theorem test_unrec_noop : oneStep 0x0000 (withRegs [(1, 7), (2, 7)]) =
    .next { withRegs [(1, 7), (2, 7)] with pc := 0x202 } := by rfl

/-- T2: 0x5121 does not skip although `V1 = V2`. -/
theorem test_unrec_5121 : gives (oneStep 0x5121 (withRegs [(1, 7), (2, 7)])) (fun t => t.pc == 0x202) = true := by decide

/-- T3: the fetch fault at 0x0FFF, no pre-increment. -/
theorem test_fetch_fault : step { State.reset with pc := 0x0FFF } =
    .next { State.reset with pc := 0x0FFF, fault := 1 } := by rfl

/-- T4, first step: a word at 4094 is executed and leaves `pc` at 0x1000. -/
theorem test_fetch_last : gives (oneStep 0x6000 { State.reset with pc := 4094 })
    (fun t => t.pc == 0x1000 && t.fault == 0) = true := by decide

/-- T5: STEP while halted changes nothing. -/
theorem test_halted_step : step { State.reset with fault := 1 } = .next { State.reset with fault := 1 } := by rfl

/-! ## Control flow -/

/-- T10. -/
theorem test_jp : gives (oneStep 0x1234 State.reset) (fun t => t.pc == 0x0234) = true := by decide

/-- R142's example: the pre-incremented `pc` is pushed. -/
theorem test_call : gives (oneStep 0x2210 { State.reset with pc := 0x204 })
    (fun t => t.pc == 0x0210 && t.sp == 1 && t.stk[0] == 0x0206) = true := by decide

/-- T13. -/
theorem test_call_overflow : gives (oneStep 0x2300 { State.reset with sp := 16 })
    (fun t => t.pc == 0x202 && t.sp == 16 && t.fault == 2 && t.stk[15] == 0) = true := by decide

/-- T15: the popped entry keeps its value. -/
theorem test_ret : gives (oneStep 0x00EE { State.reset with sp := 1, stk := State.reset.stk.set 0 0x0206, pc := 0x212 })
    (fun t => t.pc == 0x0206 && t.sp == 0 && t.stk[0] == 0x0206) = true := by decide

/-- T14. -/
theorem test_ret_underflow : gives (oneStep 0x00EE State.reset)
    (fun t => t.pc == 0x202 && t.sp == 0 && t.fault == 3) = true := by decide

/-- T16. -/
theorem test_seImm_taken : gives (oneStep 0x332A (withRegs [(3, 0x2A)])) (fun t => t.pc == 0x204) = true := by decide

/-- T17. -/
theorem test_seImm_not : gives (oneStep 0x332A (withRegs [(3, 0x2B)])) (fun t => t.pc == 0x202) = true := by decide

/-- T18. -/
theorem test_sneImm_not : gives (oneStep 0x432A (withRegs [(3, 0x2A)])) (fun t => t.pc == 0x202) = true := by decide

/-- T19. -/
theorem test_sneImm_taken : gives (oneStep 0x4300 (withRegs [(3, 0x2A)])) (fun t => t.pc == 0x204) = true := by decide

/-- T20. -/
theorem test_seReg_taken : gives (oneStep 0x5120 (withRegs [(1, 7), (2, 7)])) (fun t => t.pc == 0x204) = true := by decide

/-- T21. -/
theorem test_seReg_not : gives (oneStep 0x5120 (withRegs [(1, 7), (2, 8)])) (fun t => t.pc == 0x202) = true := by decide

/-- T23. -/
theorem test_sneReg_taken : gives (oneStep 0x9120 (withRegs [(1, 7), (2, 8)])) (fun t => t.pc == 0x204) = true := by decide

/-- T24. -/
theorem test_sneReg_not : gives (oneStep 0x9120 (withRegs [(1, 7), (2, 7)])) (fun t => t.pc == 0x202) = true := by decide

/-- T26. -/
theorem test_jpV0 : gives (oneStep 0xB300 (withRegs [(0, 0x10)])) (fun t => t.pc == 0x0310) = true := by decide

/-- T28: not reduced modulo 4096. -/
theorem test_jpV0_no_wrap : gives (oneStep 0xBFFF (withRegs [(0, 2)])) (fun t => t.pc == 0x1001) = true := by decide

/-! ## ALU -/

/-- T40. -/
theorem test_ldImm : gives (oneStep 0x6A2F State.reset) (fun t => t.reg 0xA == 0x2F && t.pc == 0x202) = true := by decide

/-- T42: no carry flag. -/
theorem test_addImm : gives (oneStep 0x7003 (withRegs [(0, 0xFE), (15, 7)]))
    (fun t => t.reg 0 == 1 && t.reg 15 == 7) = true := by decide

/-- T46. -/
theorem test_ldReg : gives (oneStep 0x8120 (withRegs [(2, 0x55)])) (fun t => t.reg 1 == 0x55) = true := by decide

/-- T47: `VF` is not reset. -/
theorem test_orReg : gives (oneStep 0x8121 (withRegs [(1, 0xF0), (2, 0x0F), (15, 1)]))
    (fun t => t.reg 1 == 0xFF && t.reg 15 == 1) = true := by decide

/-- T48. -/
theorem test_andReg : gives (oneStep 0x8122 (withRegs [(1, 0xF0), (2, 0x3C)])) (fun t => t.reg 1 == 0x30) = true := by
  decide

/-- T49. -/
theorem test_xorReg : gives (oneStep 0x8123 (withRegs [(1, 0xF0), (2, 0x3C)])) (fun t => t.reg 1 == 0xCC) = true := by
  decide

/-- S4v-a. -/
theorem test_addReg : gives (oneStep 0x8124 (withRegs [(1, 0xFF), (2, 1)]))
    (fun t => t.reg 1 == 0 && t.reg 15 == 1) = true := by decide

/-- The X = 0xF table of 95: `0x8F24` with `f = 0xFF`, `V2 = 1` leaves the carry. -/
theorem test_addReg_vf : gives (oneStep 0x8F24 (withRegs [(15, 0xFF), (2, 1)])) (fun t => t.reg 15 == 1) = true := by
  decide

/-- S5v-b. -/
theorem test_subReg : gives (oneStep 0x8125 (withRegs [(1, 3), (2, 5)]))
    (fun t => t.reg 1 == 0xFE && t.reg 15 == 0) = true := by decide

/-- T55: equal operands do not borrow. -/
theorem test_subReg_equal : gives (oneStep 0x8115 (withRegs [(1, 0x40)]))
    (fun t => t.reg 1 == 0 && t.reg 15 == 1) = true := by decide

/-- T51: `Y` is ignored. -/
theorem test_shr : gives (oneStep 0x8126 (withRegs [(1, 5), (2, 0x33)]))
    (fun t => t.reg 1 == 2 && t.reg 15 == 1 && t.reg 2 == 0x33) = true := by decide

/-- The X = 0xF table of 95: `0x8F26` with `f = 0x03` leaves the shifted value. -/
theorem test_shr_vf : gives (oneStep 0x8F26 (withRegs [(15, 3), (2, 2)])) (fun t => t.reg 15 == 1) = true := by decide

/-- T53. -/
theorem test_subn : gives (oneStep 0x8127 (withRegs [(1, 3), (2, 5)]))
    (fun t => t.reg 1 == 2 && t.reg 15 == 1) = true := by decide

/-- T54. -/
theorem test_subn_borrow : gives (oneStep 0x8127 (withRegs [(1, 5), (2, 3)]))
    (fun t => t.reg 1 == 0xFE && t.reg 15 == 0) = true := by decide

/-- T52. -/
theorem test_shl : gives (oneStep 0x812E (withRegs [(1, 0x81), (2, 0x33)]))
    (fun t => t.reg 1 == 2 && t.reg 15 == 1 && t.reg 2 == 0x33) = true := by decide

/-- The X = 0xF table of 95: `0x8F2E` with `f = 0x80` leaves the shifted value. -/
theorem test_shl_vf : gives (oneStep 0x8F2E (withRegs [(15, 0x80), (2, 0x90)])) (fun t => t.reg 15 == 0) = true := by
  decide

/-- T59, with the draw left free. -/
theorem test_rnd : oneStep 0xC3FF State.reset =
    .next (({ State.reset with pc := 0x202, draws := 1, mem := (State.reset.withFetchWord 16 0xC3FF).mem }).setReg 3
      (Config.rnd 0 &&& 0xFF)) := by rfl

/-! ## Index register and memory -/

/-- T61. -/
theorem test_ldI : gives (oneStep 0xAFFF State.reset) (fun t => t.i == 0x0FFF) = true := by decide

/-- T63: no wrap at 12 bits, `VF` kept. -/
theorem test_addI : gives (oneStep 0xF21E { withRegs [(2, 1), (15, 9)] with i := 0x0FFF })
    (fun t => t.i == 0x1000 && t.reg 15 == 9) = true := by decide

/-- T65. -/
theorem test_addI_wraps : gives (oneStep 0xF21E { withRegs [(2, 0xFF)] with i := 0xFFFF })
    (fun t => t.i == 0x00FE) = true := by decide

/-- T69: the high nibble is ignored. -/
theorem test_ldF : gives (oneStep 0xF429 (withRegs [(4, 0x1A)])) (fun t => t.i == 0x0082) = true := by decide

/-- T72: the last three bytes of memory. -/
theorem test_ldB : gives (oneStep 0xF033 { withRegs [(0, 234)] with i := 4093 })
    (fun t => t.byteAt 4093 == 2 && t.byteAt 4094 == 3 && t.byteAt 4095 == 4 && t.fault == 0) = true := by decide

/-- T74: no wrap to address 0, nothing stored. -/
theorem test_ldB_fault : gives (oneStep 0xF033 { withRegs [(0, 234)] with i := 0xFFFF })
    (fun t => t.fault == 1 && t.pc == 0x202 && t.byteAt 0 == 0) = true := by decide

/-- T75. -/
theorem test_ldMemVx : gives (oneStep 0xF255 { withRegs [(0, 1), (1, 2), (2, 3), (3, 9)] with i := 0x400 })
    (fun t => t.byteAt 0x400 == 1 && t.byteAt 0x401 == 2 && t.byteAt 0x402 == 3 && t.byteAt 0x403 == 0 &&
      t.i == 0x400) = true := by decide

/-- T77: nothing stored. -/
theorem test_ldMemVx_fault : gives (oneStep 0xF155 { withRegs [(0, 1), (1, 2)] with i := 4095 })
    (fun t => t.fault == 1 && t.byteAt 4095 == 0) = true := by decide

/-- T80. -/
theorem test_ldVxMem : gives (oneStep 0xF265 ({ withRegs [(3, 9)] with i := 0x300 }.storeBytes 0x300 [2, 3, 4, 5]))
    (fun t => t.reg 0 == 2 && t.reg 1 == 3 && t.reg 2 == 4 && t.reg 3 == 9 && t.i == 0x300) = true := by decide

/-- T81: nothing loaded. -/
theorem test_ldVxMem_fault : gives (oneStep 0xF165 { withRegs [(0, 7), (1, 8)] with i := 4095 })
    (fun t => t.fault == 1 && t.reg 0 == 7 && t.reg 1 == 8) = true := by decide

/-! ## Display -/

/-- S1v: one cell set, `VF` kept. -/
theorem test_cls : gives (oneStep 0x00E0 { withRegs [(15, 1)] with disp := State.reset.disp.toggle 5 5 })
    (fun t => t.disp == Display.blank && t.reg 15 == 1) = true := by decide

/-- T90: clipped at the bottom; the lit cells and no other. -/
theorem test_drw_clip : gives
    (oneStep 0xD123 ({ withRegs [(1, 0), (2, 30)] with i := 0x300 }.storeBytes 0x300 [0x80, 0xC0, 0xE0]))
    (fun t => t.disp == ((Display.blank.toggle 30 0).toggle 31 0).toggle 31 1 && t.reg 15 == 0) = true := by decide +kernel

/-- T96: a collision; the set cell is cleared. -/
theorem test_drw_collision : gives
    (oneStep 0xD121 ({ withRegs [(1, 2), (2, 1)] with
      i := 0x300, disp := (Display.blank.toggle 1 3).toggle 1 7 }.storeBytes 0x300 [0xF0]))
    (fun t => t.disp == ((Display.blank.toggle 1 2).toggle 1 4 |>.toggle 1 5).toggle 1 7 && t.reg 15 == 1) = true := by
  decide +kernel

/-- T94: nothing drawn, the flag not reset. -/
theorem test_drw_fault : gives (oneStep 0xD122 { withRegs [(15, 7)] with i := 4095 })
    (fun t => t.fault == 1 && t.pc == 0x202 && t.reg 15 == 7) = true := by decide

/-- T92: no row reads nothing and still resets `VF`. -/
theorem test_drw_no_rows : gives (oneStep 0xD120 { withRegs [(15, 5)] with i := 0xFFFF })
    (fun t => t.fault == 0 && t.reg 15 == 0) = true := by decide

/-! ## Keypad, timers, commands -/

/-- T110: only the low 4 bits of `vx` select the key. -/
theorem test_skp : gives (oneStep 0xE29E ((withRegs [(2, 0x15)]).setKey 5 true)) (fun t => t.pc == 0x204) = true := by
  decide

/-- T111. -/
theorem test_sknp : gives (oneStep 0xE2A1 ((withRegs [(2, 0x15)]).setKey 5 true)) (fun t => t.pc == 0x202) = true := by
  decide

/-- T113. -/
theorem test_sknp_taken : gives (oneStep 0xE2A1 (withRegs [(2, 0x15)])) (fun t => t.pc == 0x204) = true := by decide

/-- S9v-b: the lowest of two keys. -/
theorem test_ldVxK : gives (oneStep 0xF50A ((State.reset.setKey 9 true).setKey 3 true))
    (fun t => t.reg 5 == 3 && t.pc == 0x202) = true := by decide

/-- S9v-a: no key, `pc` stays. -/
theorem test_ldVxK_waits : gives (oneStep 0xF50A State.reset) (fun t => t.pc == 0x200 && t.reg 5 == 0) = true := by decide

/-- T114. -/
theorem test_ldVxDt : gives (oneStep 0xF507 { State.reset with dt := 0x3C })
    (fun t => t.reg 5 == 0x3C && t.dt == 0x3C) = true := by decide

/-- T115. -/
theorem test_ldDtVx : gives (oneStep 0xF515 (withRegs [(5, 120)])) (fun t => t.dt == 120 && t.st == 0) = true := by decide

/-- T116. -/
theorem test_ldStVx : gives (oneStep 0xF618 (withRegs [(6, 0x10)])) (fun t => t.st == 0x10 && t.tone && t.dt == 0) = true := by
  decide

/-- T118: a timer at 0 stays at 0. -/
theorem test_tick : gives (step { State.reset with dt := 1, cmds := [.tick] }) (fun t => t.dt == 0 && t.st == 0) = true := by
  decide

/-- T121: TICK acts while halted. -/
theorem test_tick_halted : gives (step { State.reset with dt := 5, fault := 2, cmds := [.tick] })
    (fun t => t.dt == 4 && t.fault == 2) = true := by decide

/-- T122. -/
theorem test_setKey : gives (step { State.reset with cmds := [.setKey 0xA true] })
    (fun t => t.key[0xA] && t.pc == 0x200) = true := by decide

/-- T133: the odd image `60 01 12`; the address after it reads 0. -/
theorem test_reset_image : gives (step { State.reset with cmds := [.reset [0x60, 0x01, 0x12]] })
    (fun t => t.byteAt 0x200 == 0x60 && t.byteAt 0x201 == 0x01 && t.byteAt 0x202 == 0x12 && t.byteAt 0x203 == 0) = true := by
  decide

/-- T134: RESET clears the fault and the keys. -/
theorem test_reset_clears : gives (step { State.reset.setKey 3 true with fault := 3, cmds := [.reset []] })
    (fun t => t.fault == 0 && !t.key[3]) = true := by decide

/-- T132: an image of 3585 bytes is refused, and the state stays. -/
theorem test_reset_too_large : State.reset.resetCommand (List.replicate 3585 0) = .error .romTooLarge := by
  rw [State.resetCommand, List.length_replicate]
  rfl

/-- R283: the first row of glyph A lies at 0x082 and the last of glyph F at 0x09F. -/
theorem test_font : State.reset.byteAt 0x082 = 0xF0 ∧ State.reset.byteAt 0x09F = 0x80 := by decide

/-! ## Witnesses: states and operands that meet the hypotheses of the statements, at the boundaries of their clauses -/

/-- ResetCommandRewritesEverything: the longest legal image, its last byte, and the shortest refused one. -/
theorem witness_reset_image : (List.replicate 3584 (0xAA : Byte)).length ≤ 3584 ∧
    3583 < (List.replicate 3584 (0xAA : Byte)).length ∧ 3584 < (List.replicate 3585 (0xAA : Byte)).length := by
  refine ⟨?_, ?_, ?_⟩ <;> rw [List.length_replicate] <;> omega

/-- TickDecrementsBothTimersOnly, OnlyTheNamedInstructionsWrite, NoInstructionReadsTheSoundTimer: an instruction that
answers a next state and is neither `FX15` nor `FX18`. -/
theorem witness_exec_next : exec (.jp 0x234) State.reset = .next { State.reset with pc := 0x234 } ∧
    (∀ x, (Instr.jp 0x234) ≠ .ldDtVx x) ∧ ∀ x, (Instr.jp 0x234) ≠ .ldStVx x :=
  ⟨rfl, fun _ => nofun, fun _ => nofun⟩

/-- OnlyTheNamedInstructionsWrite: each kind of state really changes under an instruction named for it. -/
theorem witness_named_writes :
    gives (exec (.call 0x300) { State.reset with pc := 0x202 }) (fun t => t.sp != 0 && t.stk != State.reset.stk) = true ∧
    gives (exec (.ldI 0x300) State.reset) (fun t => t.i != 0) = true ∧
    gives (exec (.ldB 0) { withRegs [(0, 234)] with i := 0x300 }) (fun t => t.mem != []) = true ∧
    gives (exec .cls { State.reset with disp := State.reset.disp.toggle 0 0 })
      (fun t => t.disp.cell 0 0 != (State.reset.disp.toggle 0 0).cell 0 0) = true := by decide

/-- TickDecrementsBothTimersOnly: a whole STEP of `FX15` that sets `DT`, and one of another instruction that keeps it. -/
theorem witness_step_timers :
    gives (stepCommand ({ withRegs [(5, 120)] with dt := 9 }.withFetchWord 16 0xF515)) (fun t => t.dt == 120) = true ∧
    gives (stepCommand ({ State.reset with dt := 9 }.withFetchWord 16 0x6A2F)) (fun t => t.dt == 9) = true := by decide

/-- StepPerformsTheNextCommand: NONE listed first, halted or not. -/
theorem witness_idle : ({ State.reset with cmds := [.idle, .tick] } : State).cmds = .idle :: [.tick] ∧
    step { State.reset with cmds := [.idle, .tick], dt := 5 } = .next { State.reset with cmds := [.tick], dt := 5 } :=
  ⟨rfl, rfl⟩

/-- StepCommandStages: a halted state, the lowest `pc` that cannot be fetched from and the highest that can. -/
theorem witness_step_stages : ({ State.reset with fault := 1 } : State).fault ≠ 0 ∧
    State.reset.fault = 0 ∧ 4096 ≤ ({ State.reset with pc := 4095 } : State).pc.toNat + 1 ∧
    ({ State.reset with pc := 4094 } : State).pc.toNat + 1 < 4096 := by decide

/-- StepRunsTheDecodedInstruction, StepPerformsTheNextCommand: an instruction at `pc`, with nothing listed on the port and
with STEP listed first. -/
theorem witness_step_decodes :
    decode [(State.reset.withFetchWord 16 0x6A2F).byteAt 0x200, (State.reset.withFetchWord 16 0x6A2F).byteAt 0x201] =
      .ok (.ldImm 0xA 0x2F, []) ∧
    (State.reset.withFetchWord 16 0x6A2F).fault = 0 ∧ (State.reset.withFetchWord 16 0x6A2F).pc = 0x200 ∧
    (State.reset.withFetchWord 16 0x6A2F).cmds = [] ∧
    ({ State.reset with cmds := [.step, .tick] } : State).cmds = .step :: [.tick] := ⟨rfl, rfl, rfl, rfl, rfl⟩

/-- PlacedWordIsRunNext, and the memory hypotheses elsewhere: reset memory is in canonical form. -/
theorem witness_reset_wf : Mem.wf State.reset.font State.reset.mem := ⟨List.Pairwise.nil, nofun⟩

/-- FaultsArePrecise, FaultsAreExactlyTheTable: from `FAULT = 0`, an instruction that completes, one that faults, and a
fetch that faults. -/
theorem witness_faults : State.reset.fault = 0 ∧
    exec (.jp 0x234) State.reset = .next { State.reset with pc := 0x234 } ∧
    exec .ret State.reset = .next { State.reset with fault := 3 } ∧
    ({ State.reset with pc := 4095 } : State).pc.toNat + 1 ≥ 4096 ∧
    stepCommand { State.reset with pc := 4095 } = .next { State.reset with pc := 4095, fault := 1 } :=
  ⟨rfl, rfl, rfl, by decide, rfl⟩

/-- OnlyResetLeavesTheHaltedState: a halted state and a command other than RESET, STEP among them. -/
theorem witness_halted : ({ State.reset with fault := 3 } : State).fault ≠ 0 ∧
    (∀ rom, Command.tick ≠ .reset rom) ∧ ∀ rom, Command.step ≠ .reset rom :=
  ⟨by decide, fun _ => nofun, fun _ => nofun⟩

/-- DecodeOfEncodeIsTheInstruction: well-formed instructions, an unrecognised word among them. -/
theorem witness_wellFormed : (Instr.drw 15 0 15).WellFormed ∧ (Instr.unrec 0x0000).WellFormed := by decide

/-- DecodeFollowsTheOpcodeMap, UnrecognisedWordDoesNothing: a row, a word it matches, and a word no row matches. -/
theorem witness_rows : (⟨"UNREC", 0, 0⟩ : Row) ∉ opcodeRows ∧ (⟨"CLS", 0xffff, 0x00e0⟩ : Row) ∈ opcodeRows ∧
    recognised 0x00E0 = true ∧ recognised 0x00E1 = false ∧
    ∀ r ∈ opcodeRows, (0x00E1 : Word) &&& r.mask ≠ r.pattern := by decide

/-- RetPopsTheReturnAddress, CallPushesTheReturnAddress, CallThenReturnRestoresPcAndDepth: the lowest and the highest
depth of each clause. -/
theorem witness_stack_depths :
    ({ State.reset with sp := 1 } : State).sp.val = (0 : Fin 16).val + 1 ∧
    ({ State.reset with sp := 16 } : State).sp.val = (15 : Fin 16).val + 1 ∧ State.reset.sp.val = 0 ∧
    State.reset.sp.val = (0 : Fin 16).val ∧ ({ State.reset with sp := 15 } : State).sp.val = (15 : Fin 16).val ∧
    ({ State.reset with sp := 16 } : State).sp.val = 16 ∧ ({ State.reset with sp := 15 } : State).sp.val < 16 := by decide

/-- The ALU statements: a destination that is not `VF`, a register that is neither, a bit of `NN` that is 0. -/
theorem witness_alu : (14 : Reg) ≠ 15 ∧ (0 : Reg) ≠ 14 ∧ (0 : Reg) ≠ 15 ∧ (0x0F : Byte).getLsbD 4 = false := by decide

/-- BcdStoresThreeDigits: the highest legal `I` and the lowest that faults; a byte below and a byte above the block. -/
theorem witness_bcd : Mem.wf ({ State.reset with i := 4093 } : State).font ({ State.reset with i := 4093 } : State).mem ∧
    ({ State.reset with i := 4093 } : State).i.toNat + 2 ≤ 4095 ∧
    ({ State.reset with i := 4094 } : State).i.toNat + 2 > 4095 ∧
    4092 < ({ State.reset with i := 4093 } : State).i.toNat ∧
    ({ State.reset with i := 0x300 } : State).i.toNat + 2 < 0x303 := by decide

/-- StoreRegisterBlock, LoadRegisterBlock, StoreThenLoadRestoresRegisters: `I + X` at 4095 and at 4096. -/
theorem witness_blocks :
    Mem.wf ({ State.reset with i := 4080 } : State).font ({ State.reset with i := 4080 } : State).mem ∧
    ({ State.reset with i := 4080 } : State).i.toNat + (15 : Reg).val ≤ 4095 ∧
    ({ State.reset with i := 4081 } : State).i.toNat + (15 : Reg).val > 4095 ∧ (15 : Reg) ≤ 15 ∧
    ({ State.reset with i := 4095 } : State).i.toNat + (0 : Reg).val ≤ 4095 := by decide

/-- The state of the store witnesses: reset with `I` and the address of the next instruction given. -/
def storeState (i pc : Word) : State := { State.reset with i := i, pc := pc }

/-- StoreIsSeenByTheNextFetch: the hypotheses, for each form with a `pc` of which the store at 0x300 covers the second byte
only, both, or the first only, and at the top of memory. -/
theorem witness_store_fetch :
    (∀ i pc, Mem.wf (storeState i pc).font (storeState i pc).mem ∧ (storeState i pc).fault = 0) ∧
    (storeState 0x300 0x2FF).pc.toNat + 1 < 4096 ∧ (storeState 0x300 0x301).pc.toNat + 1 < 4096 ∧
    (storeState 0x300 0x302).pc.toNat + 1 < 4096 ∧ (storeState 0x300 0x302).i.toNat + (2 : Reg).val ≤ 4095 ∧
    (storeState 0x300 0x302).i.toNat + 2 ≤ 4095 ∧ (storeState 4080 4094).pc.toNat + 1 < 4096 ∧
    (storeState 4080 4094).i.toNat + (15 : Reg).val ≤ 4095 ∧ (storeState 4093 4094).i.toNat + 2 ≤ 4095 :=
  ⟨fun _ _ => ⟨⟨List.Pairwise.nil, nofun⟩, rfl⟩, by decide⟩

/-- StoreIsSeenByTheNextFetch, R78: `FX33` on 234 stores 2, 3, 4 at 0x300; the word at 0x2FF is then 0x0002 and the word
at 0x302 is 0x0400, no-ops both, and the word at 0x301 is 0x0304. -/
theorem witness_byteUnder :
    (storeState 0x300 0x2FF).byteUnder [2, 3, 4] 0x2FF = 0 ∧ (storeState 0x300 0x2FF).byteUnder [2, 3, 4] 0x300 = 2 ∧
    (storeState 0x300 0x301).byteUnder [2, 3, 4] 0x302 = 4 ∧ (storeState 0x300 0x302).byteUnder [2, 3, 4] 0x303 = 0 := by decide

/-- DrawBlendsTheClippedSprite: no visible row with `I` out of range; the last byte of memory as the last row; one row
more. -/
theorem witness_draw_ranges :
    (State.reset.reg 1).toNat % 64 = 0 ∧ min (0 : Nibble).toNat (32 - (State.reset.reg 2).toNat % 32) = 0 ∧
    min (1 : Nibble).toNat (32 - (State.reset.reg 2).toNat % 32) = 1 ∧
    ({ State.reset with i := 4095 } : State).i.toNat + 1 - 1 ≤ 4095 ∧
    min (2 : Nibble).toNat (32 - (State.reset.reg 2).toNat % 32) = 2 ∧
    ({ State.reset with i := 4095 } : State).i.toNat + 2 - 1 > 4095 := by decide

/-- BlendUnitRefinesTheDrawLoop: the last column, and a sprite that ends on the last row. -/
theorem witness_blend : 63 < 64 ∧ 30 + ([0xFF, 0x81] : List Byte).length ≤ 32 := by decide

/-- The state of the source's clipping example, R205: a clear display, `V1` = 60, `V2` = 0, the byte 0xFF at `I`. -/
def clipState : State := { withRegs [(1, 60), (2, 0)] with i := 0x300 }.storeBytes 0x300 [0xFF]

/-- DrawClipsAndUndoesItself: the source's clipping example meets the hypotheses of both halves. -/
theorem witness_draw_clip :
    clipState.reg 1 = 60 ∧ clipState.reg 2 = 0 ∧ clipState.i.toNat ≤ 4095 ∧ clipState.byteAt clipState.i.toNat = 0xFF ∧
    (∀ v u, clipState.disp.cell v u = false) ∧ (1 : Reg) ≠ 15 ∧ (2 : Reg) ≠ 15 ∧ clipState.i.toNat + 15 ≤ 4096 :=
  ⟨by decide, by decide, by decide, by decide, fun v u => by simp [clipState, withRegs, State.storeBytes, State.setReg,
    State.reset, Display.cell], by decide, by decide, by decide⟩

/-- SkipIfKeyPressed, SkipIfKeyNotPressed: the key of a register value with high bits set. -/
theorem witness_key_operand : (5 : Fin 16).val = ((withRegs [(2, 0x15)]).reg 2).toNat % 16 := by decide

/-- WaitForKeyTakesTheLowestOrRewinds: keys 3 and 9 pressed, 3 the lowest; and no key pressed. -/
theorem witness_wait_key : ((State.reset.setKey 9 true).setKey 3 true).key[3] = true ∧
    (∀ j : Fin 16, j < 3 → ((State.reset.setKey 9 true).setKey 3 true).key[j] = false) ∧
    ∀ k : Fin 16, State.reset.key[k] = false := by decide

/-- StepKeepsTheInvariant: a state that meets the invariant, at the highest `pc` whose fetch succeeds, and its step. -/
theorem witness_inv_step : ({ State.reset with pc := 4094 } : State).Inv ∧
    step { State.reset with pc := 4094 } = .next { State.reset with pc := 4096 } :=
  ⟨⟨⟨List.Pairwise.nil, nofun⟩, by decide, by decide⟩, rfl⟩

/-- UnrecognisedWordsAreTheListedOnes at the edges of its clauses: 0x00E0 is out, 0x00E1 is in, 0x8007 out, 0x8008 in. -/
theorem witness_unrec_edges : decodeWord 0x00E0 ≠ .unrec 0x00E0 ∧ decodeWord 0x00E1 = .unrec 0x00E1 ∧
    decodeWord 0x8007 ≠ .unrec 0x8007 ∧ decodeWord 0x8008 = .unrec 0x8008 := by decide

end Sys2Proof.Tests
end

section
/-! SUPPORT. The port takes one command per step (00_scope.md R16, log entry 3), and each layer of the machine, from the
guarded update up to the step, answers a next state (R265). -/

namespace Sys2Proof.Machine

/-- A guarded update answers a next state: the updated one, or the one with the address fault. -/
theorem State.guardRange_answers (s u : State) (a n : Nat) : ∃ t, s.guardRange a n (.next u) = .next t := by
  rcases s.guardRange_cases a n (.next u) with ⟨-, h⟩ | ⟨-, h⟩
  · exact ⟨u, h⟩
  · exact ⟨_, h.trans (raise_eq _ s)⟩

/-- RET answers a next state, on an empty stack the faulted one (R140). -/
theorem execRet_answers (s : State) : ∃ t, execRet s = .next t := by
  unfold execRet
  cases s.pop with
  | ok r => exact ⟨_, rfl⟩
  | error f => exact ⟨_, raise_eq f s⟩

/-- CALL answers a next state, on a full stack the faulted one (R142). -/
theorem execCall_answers (nnn : BitVec 12) (s : State) : ∃ t, execCall nnn s = .next t := by
  unfold execCall
  cases s.push s.pc with
  | ok t => exact ⟨_, rfl⟩
  | error f => exact ⟨_, raise_eq f s⟩

/-- The key wait answers a next state, with no key pressed the one gone back to itself (R218). -/
theorem execLdVxK_answers (x : Reg) (s : State) : ∃ t, execLdVxK x s = .next t := by
  unfold execLdVxK
  cases s.lowestKey with
  | some k => exact ⟨_, rfl⟩
  | none => exact ⟨_, rfl⟩

/-- The execute stage answers a next state (R125). The named cases have more than one path; every other meaning is an
update with no condition on whether it answers. -/
theorem exec_answers (i : Instr) (s : State) : ∃ t, exec i s = .next t := by
  cases i with
  | ret => exact execRet_answers s
  | call nnn => exact execCall_answers nnn s
  | ldVxK x => exact execLdVxK_answers x s
  | drw x y n => exact s.guardRange_answers ..
  | ldB x => exact s.guardRange_answers ..
  | ldMemVx x => exact s.guardRange_answers ..
  | ldVxMem x => exact s.guardRange_answers ..
  | _ => exact ⟨_, rfl⟩

/-- STEP answers a next state, halted, at a fetch fault and otherwise (R120). -/
theorem stepCommand_answers (s : State) : ∃ t, stepCommand s = .next t := by
  rcases stepCommand_cases s with ⟨-, h⟩ | ⟨-, -, h⟩ | ⟨-, -, h⟩
  · exact ⟨_, h⟩
  · exact ⟨_, h⟩
  · exact h ▸ exec_answers _ _

/-- A refused RESET answers a next state like an accepted one (R267, R282). -/
theorem runCommand_reset_answers (rom : List Byte) (s : State) : ∃ t, runCommand (.reset rom) s = .next t := by
  cases h : s.resetCommand rom with
  | ok t => exact ⟨t, by simp only [runCommand, h]⟩
  | error e => exact ⟨s, by cases e; simp only [runCommand, h]⟩

/-- Every command of the host answers a next state. -/
theorem runCommand_answers (c : Command) (s : State) : ∃ t, runCommand c s = .next t := by
  cases c with
  | idle => exact ⟨s, rfl⟩
  | reset rom => exact runCommand_reset_answers rom s
  | step => exact stepCommand_answers s
  | tick => exact ⟨s.tick, rfl⟩
  | setKey k p => exact ⟨s.setKey k p, rfl⟩

/-- A step answers a next state. -/
theorem step_answers (s : State) : ∃ t, step s = .next t := by
  rcases step_cases s with ⟨-, h⟩ | ⟨c, rest, -, h⟩
  · exact h ▸ stepCommand_answers s
  · exact h ▸ runCommand_answers c _

/-- The command NONE holds the state. -/
@[simp] theorem runCommand_idle (s : State) : runCommand .idle s = .next s := rfl

/-- With commands listed, a step takes the first and performs it (R16). -/
theorem step_of_cmds_cons {s : State} {c : Command} {rest : List Command} (h : s.cmds = c :: rest) :
    step s = runCommand c { s with cmds := rest } := by
  rcases step_cases s with ⟨hnil, -⟩ | ⟨c', rest', hcons, hstep⟩
  · exact absurd (h.symm.trans hnil) (List.cons_ne_nil c rest)
  · obtain ⟨rfl, rfl⟩ := List.cons.inj (h.symm.trans hcons)
    exact hstep

/-- With none listed, a step performs STEP (log entry 3). -/
theorem step_of_cmds_nil {s : State} (h : s.cmds = []) : step s = runCommand .step s := by
  rcases step_cases s with ⟨-, hstep⟩ | ⟨c, rest, hcons, -⟩
  · exact hstep
  · exact absurd (hcons.symm.trans h) (List.cons_ne_nil c rest)

/-- Settles O9: the head of the port from `step_cases`, the next state from the layers below. -/
theorem stepPerformsTheNextCommand : Obligations.StepPerformsTheNextCommand := by
  unfold Obligations.StepPerformsTheNextCommand
  exact fun s => ⟨fun _ _ => step_of_cmds_cons, step_of_cmds_nil, runCommand_idle s,
    fun rest h => (step_of_cmds_cons h).trans (runCommand_idle { s with cmds := rest }), step_answers s⟩

end Sys2Proof.Machine
end

section
/-! SUPPORT. The stack instructions as equations (41_control_flow.md R140, R142), one for each kind of stack, and that a
CALL and the RET after it pair up (10_state.md R39). -/

namespace Sys2Proof.Machine

/-- RET on a stack that is not empty (R140). -/
theorem execRet_of_pos (s : State) (h : 0 < s.sp.val) :
    execRet s = .next { s with sp := ⟨s.sp.val - 1, by omega⟩, pc := s.stk[s.sp.val - 1]'(by omega) } := by
  rw [execRet, s.pop_of_pos h]
  rfl

/-- RET on an empty stack (R140). -/
theorem execRet_of_empty (s : State) (h : s.sp.val = 0) : execRet s = .next { s with fault := 3 } := by
  rw [execRet, s.pop_of_empty h]
  rfl

/-- CALL on a stack that is not full (R142). -/
theorem execCall_of_lt (nnn : BitVec 12) (s : State) (h : s.sp.val < 16) :
    execCall nnn s = .next { s with
      stk := s.stk.set s.sp.val s.pc h, sp := ⟨s.sp.val + 1, by omega⟩, pc := addressOperand nnn } := by
  rw [execCall, s.push_of_lt s.pc h]
  rfl

/-- CALL on a full stack (R142). -/
theorem execCall_of_full (nnn : BitVec 12) (s : State) (h : s.sp.val = 16) :
    execCall nnn s = .next { s with fault := 2 } := by
  rw [execCall, s.push_of_full s.pc h]
  rfl

/-- Settles O58: the CALL pushes, so the stack is not empty for the RET, which reads the entry the CALL has set. -/
theorem callThenReturnRestoresPcAndDepth : Obligations.CallThenReturnRestoresPcAndDepth := by
  unfold Obligations.CallThenReturnRestoresPcAndDepth
  intro nnn s hs
  refine ⟨_, execCall_of_lt nnn s hs, fun p => ⟨_, execRet_of_pos { s with
    stk := s.stk.set s.sp.val s.pc hs, sp := ⟨s.sp.val + 1, by omega⟩, pc := p } (Nat.succ_pos _), ?_, ?_⟩⟩
  · exact Vector.getElem_set_self hs
  · rfl

end Sys2Proof.Machine
end

section
/-! SUPPORT. The frame of the execute stage (40_step_pipeline.md R127): the components that an instruction may write. -/

namespace Sys2Proof.Machine

/-- The components that `i` is not named for are the same in `t` as in `s` (R38, R42, R43, R72, R127); no instruction is
named for the keypad or for the font. -/
structure Frame (i : Instr) (s t : State) : Prop where
  key : t.key = s.key
  font : t.font = s.font
  disp : t.disp ≠ s.disp → i = .cls ∨ ∃ x y n, i = .drw x y n
  mem : t.mem ≠ s.mem → (∃ x, i = .ldB x) ∨ ∃ x, i = .ldMemVx x
  sp : t.sp ≠ s.sp → i = .ret ∨ ∃ nnn, i = .call nnn
  stk : t.stk ≠ s.stk → ∃ nnn, i = .call nnn
  index : t.i ≠ s.i → (∃ nnn, i = .ldI nnn) ∨ (∃ x, i = .addI x) ∨ ∃ x, i = .ldF x

/-- The execute stage keeps to the frame of its instruction. The named cases have more than one path; every other meaning
is one update of the state. -/
theorem exec_frame {i : Instr} {s t : State} (h : exec i s = .next t) : Frame i s t := by
  cases i with
  | ret => rcases execRet_next h with ⟨-, rfl⟩ | ⟨-, rfl⟩ <;> constructor <;> simp
  | call nnn => rcases execCall_next h with ⟨-, rfl⟩ | ⟨-, rfl⟩ <;> constructor <;> simp
  | ldVxK x => rcases execLdVxK_next h with ⟨k, -, rfl⟩ | ⟨-, rfl⟩ <;> constructor <;> simp
  | drw | ldB | ldMemVx | ldVxMem =>
    rcases State.guardRange_next h with ⟨rfl, -⟩ | ⟨rfl, -⟩ <;> constructor <;> simp
  | _ =>
    obtain rfl := Host.Outcome.next.inj h
    constructor <;> simp [State.setRegThenFlag, State.setFlagThenReg]

/-- Settles O59: the parts of the frame. -/
theorem onlyTheNamedInstructionsWrite : Obligations.OnlyTheNamedInstructionsWrite := by
  unfold Obligations.OnlyTheNamedInstructionsWrite
  intro i s t h
  obtain ⟨hkey, -, hdisp, hmem, hsp, hstk, hindex⟩ := exec_frame h
  exact ⟨hkey, hdisp, hmem, hsp, hstk, hindex⟩

end Sys2Proof.Machine
end

section
/-! SUPPORT. The invariant (10_state.md R35, log entry 11) holds after RESET and every step keeps it. The execute stage
begins with a `pc` between 2 and 4096, since the fetch succeeded below 4095 and `pc` is past the word (R121, R122). -/

namespace Sys2Proof.Machine

/-- After reset every stack entry is 0 (R40). -/
theorem stk_reset (k : Fin 16) : State.reset.stk[k] = 0 := Vector.getElem_replicate k.isLt

/-- RESET with an image of a legal length meets the invariant from any state. -/
theorem State.inv_loadImage (s : State) {rom : List Byte} (h : rom.length ≤ Config.maxImage) :
    (s.loadImage rom).Inv := by
  have hpc : State.reset.pc.toNat ≤ 0x10FE := by decide
  have hstk (k : Fin 16) : State.reset.stk[k].toNat ≤ 4096 := by
    rw [stk_reset]
    decide
  refine ⟨Mem.wf_ofImage s.font rom ?_, hpc, hstk⟩
  simp only [Config.maxImage] at h
  simp only [Config.progBase, Config.memSize]
  omega

/-- Settles O56: the state after reset is the one after RESET with the empty image. -/
theorem resetMeetsTheInvariant : Obligations.ResetMeetsTheInvariant := by
  unfold Obligations.ResetMeetsTheInvariant
  have hlen : ([] : List Byte).length ≤ Config.maxImage := Nat.zero_le _
  exact State.reset.inv_loadImage hlen

/-- A guarded store of a block at `I` keeps memory in canonical form. -/
theorem State.guarded_store_keeps_wf {s t : State} {n : Nat} {us : List Byte} (hlen : us.length = n)
    (h : s.guardRange s.i.toNat n (.next (s.storeBytes s.i.toNat us)) = .next t) (hm : Mem.wf s.font s.mem) :
    Mem.wf t.font t.mem := by
  rcases State.guardRange_next h with ⟨rfl, hr⟩ | ⟨rfl, -⟩
  · rcases hr with rfl | hr
    · rwa [List.eq_nil_of_length_eq_zero hlen]
    · exact Mem.wf_writeBytes s.font us hm (by simpa only [Config.memSize, hlen] using hr)
  · exact hm

/-- The execute stage keeps memory in canonical form: only `FX33` and `FX55` write it. -/
theorem exec_keeps_wf {i : Instr} {s t : State} (h : exec i s = .next t) (hm : Mem.wf s.font s.mem) :
    Mem.wf t.font t.mem := by
  cases i with
  | ldB x => exact State.guarded_store_keeps_wf (State.length_bcdDigits _) h hm
  | ldMemVx x => exact State.guarded_store_keeps_wf (s.length_regsUpTo x) h hm
  | _ =>
    have hframe := exec_frame h
    have hmem := not_imp_comm.1 hframe.mem (by simp)
    rwa [hframe.font, hmem]

/-- The execute stage keeps every stack entry at most 4096: only CALL writes one, the `pc` it is given. -/
theorem exec_keeps_stk_le {i : Instr} {s t : State} (h : exec i s = .next t) (hpc : s.pc.toNat ≤ 4096)
    (hstk : ∀ k : Fin 16, s.stk[k].toNat ≤ 4096) (k : Fin 16) : t.stk[k].toNat ≤ 4096 := by
  cases i with
  | call nnn =>
    rcases execCall_next h with ⟨hp, rfl⟩ | ⟨-, rfl⟩
    · rw [Fin.getElem_fin, Vector.getElem_set hp]
      split
      · exact hpc
      · exact hstk k
    · exact hstk k
  | _ =>
    have hst := not_imp_comm.1 (exec_frame h).stk (by simp)
    rw [hst]
    exact hstk k

/-- An address operand is `NNN` itself (R92). -/
@[simp] theorem addressOperand_toNat (nnn : BitVec 12) : (addressOperand nnn).toNat = nnn.toNat :=
  BitVec.toNat_setWidth_of_le (by decide)

/-- A zero-extended register value is that value (R147, R182). -/
@[simp] theorem wideOperand_toNat (b : Byte) : (wideOperand b).toNat = b.toNat :=
  BitVec.toNat_setWidth_of_le (by decide)

/-- The target of a jump or a call is at most 4095 (R92). -/
theorem addressOperand_toNat_le (nnn : BitVec 12) : (addressOperand nnn).toNat ≤ 0x10FE := by
  rw [addressOperand_toNat]
  omega

/-- The target of `BNNN` is at most 4095 + 255, the bound of R35 (R147). -/
theorem addressOperand_add_wideOperand_toNat_le (nnn : BitVec 12) (b : Byte) :
    (addressOperand nnn + wideOperand b).toNat ≤ 0x10FE := by
  rw [BitVec.toNat_add, addressOperand_toNat, wideOperand_toNat]
  omega

/-- A skip adds at most 2 to `pc` (R149). -/
theorem State.skipIf_pc_toNat_le (s : State) (c : Bool) : (s.skipIf c).pc.toNat ≤ s.pc.toNat + 2 := by
  cases c with
  | false => exact Nat.le_add_right _ _
  | true => exact (BitVec.toNat_add s.pc 2).trans_le (Nat.mod_le _ _)

/-- The execute stage leaves `pc` within the bound R35 derives. -/
theorem exec_pc_le {i : Instr} {s t : State} (h : exec i s = .next t) (hlo : 2 ≤ s.pc.toNat)
    (hhi : s.pc.toNat ≤ 4096) (hstk : ∀ k : Fin 16, s.stk[k].toNat ≤ 4096) : t.pc.toNat ≤ 0x10FE := by
  have hsame : s.pc.toNat ≤ 0x10FE := by omega
  cases i with
  | ret =>
    rcases execRet_next h with ⟨hp, rfl⟩ | ⟨-, rfl⟩
    · exact (hstk ⟨s.sp.val - 1, by omega⟩).trans (by decide)
    · exact hsame
  | call nnn =>
    rcases execCall_next h with ⟨-, rfl⟩ | ⟨-, rfl⟩
    · exact addressOperand_toNat_le nnn
    · exact hsame
  | jp nnn =>
    obtain rfl := Host.Outcome.next.inj h
    exact addressOperand_toNat_le nnn
  | jpV0 nnn =>
    obtain rfl := Host.Outcome.next.inj h
    exact addressOperand_add_wideOperand_toNat_le nnn _
  | seImm | sneImm | seReg | sneReg | skp | sknp =>
    obtain rfl := Host.Outcome.next.inj h
    exact (s.skipIf_pc_toNat_le _).trans (by omega)
  | ldVxK x =>
    rcases execLdVxK_next h with ⟨k, -, rfl⟩ | ⟨-, rfl⟩
    · exact hsame
    · rw [State.setPc_pc]
      bv_omega
  | drw | ldB | ldMemVx | ldVxMem =>
    rcases State.guardRange_next h with ⟨rfl, -⟩ | ⟨rfl, -⟩ <;> simpa using hsame
  | _ =>
    obtain rfl := Host.Outcome.next.inj h
    exact hsame

/-- The execute stage keeps the invariant, given the `pc` of a successful fetch. -/
theorem exec_keeps_inv {i : Instr} {s t : State} (hs : s.Inv) (hlo : 2 ≤ s.pc.toNat) (hhi : s.pc.toNat ≤ 4096)
    (h : exec i s = .next t) : t.Inv := by
  obtain ⟨hm, -, hstk⟩ := hs
  exact ⟨exec_keeps_wf h hm, exec_pc_le h hlo hhi hstk, exec_keeps_stk_le h hhi hstk⟩

/-- Past a word that can be fetched, `pc` is between 2 and 4096 (R121, R122), and the invariant holds still. -/
theorem State.Inv.advance {s : State} (hs : s.Inv) (h : s.pc.toNat + 1 < 4096) :
    s.advance.Inv ∧ 2 ≤ s.advance.pc.toNat ∧ s.advance.pc.toNat ≤ 4096 := by
  obtain ⟨hm, -, hstk⟩ := hs
  have hpc : s.advance.pc.toNat = s.pc.toNat + 2 := by
    rw [State.advance_pc, BitVec.toNat_add_of_lt] <;> simp; omega
  exact ⟨⟨hm, by omega, hstk⟩, by omega, by omega⟩

/-- STEP keeps the invariant, halted, at a fetch fault and otherwise (R120). -/
theorem stepCommand_keeps_inv {s t : State} (hs : s.Inv) (h : stepCommand s = .next t) : t.Inv := by
  rcases stepCommand_cases s with ⟨-, he⟩ | ⟨-, -, he⟩ | ⟨-, hpc, he⟩
  · obtain rfl := Host.Outcome.next.inj (he.symm.trans h)
    exact hs
  · obtain rfl := Host.Outcome.next.inj (he.symm.trans h)
    exact hs
  · obtain ⟨hadv, hlo, hhi⟩ := hs.advance hpc
    exact exec_keeps_inv hadv hlo hhi (he.symm.trans h)

/-- RESET either loads an image of a legal length or changes nothing (R281, R282). -/
theorem runCommand_reset_next {rom : List Byte} {s t : State} (h : runCommand (.reset rom) s = .next t) :
    (rom.length ≤ Config.maxImage ∧ t = s.loadImage rom) ∨ (Config.maxImage < rom.length ∧ t = s) := by
  by_cases hlen : rom.length ≤ Config.maxImage
  · have he : s.resetCommand rom = .ok (s.loadImage rom) := if_pos hlen
    simp only [runCommand, he] at h
    exact .inl ⟨hlen, (Host.Outcome.next.inj h).symm⟩
  · have he : s.resetCommand rom = .error .romTooLarge := if_neg hlen
    simp only [runCommand, he] at h
    exact .inr ⟨Nat.lt_of_not_le hlen, (Host.Outcome.next.inj h).symm⟩

/-- Every command of the host keeps the invariant. -/
theorem runCommand_keeps_inv {c : Command} {s t : State} (hs : s.Inv) (h : runCommand c s = .next t) : t.Inv := by
  cases c with
  | reset rom =>
    rcases runCommand_reset_next h with ⟨hlen, rfl⟩ | ⟨-, rfl⟩
    · exact s.inv_loadImage hlen
    · exact hs
  | step => exact stepCommand_keeps_inv hs h
  | idle | tick | setKey =>
    obtain rfl := Host.Outcome.next.inj h
    exact hs

/-- Settles O57: a step is one command, and taking it off the port leaves what the invariant speaks of. -/
theorem stepKeepsTheInvariant : Obligations.StepKeepsTheInvariant := by
  unfold Obligations.StepKeepsTheInvariant
  intro s t hs h
  rcases step_cases s with ⟨-, he⟩ | ⟨c, rest, -, he⟩
  · exact stepCommand_keeps_inv hs (he.symm.trans h)
  · have hrest : State.Inv { s with cmds := rest } := hs
    exact runCommand_keeps_inv hrest (he.symm.trans h)

end Sys2Proof.Machine
end

section
/-! SUPPORT. No instruction reads `ST` (10_state.md R41, R44): setting it before the execute stage is setting it after. -/

namespace Sys2Proof.Machine

/-- A guarded update does not read `ST` if the update does not. -/
theorem State.guardRange_setSt {s u t : State} {a n : Nat} (b : Byte) (h : s.guardRange a n (.next u) = .next t) :
    (s.setSt b).guardRange a n (.next (u.setSt b)) = .next (t.setSt b) := by
  rcases State.guardRange_next h with ⟨rfl, hr⟩ | ⟨rfl, hr⟩
  · exact (s.setSt b).guardRange_of_inRange _ hr
  · exact (s.setSt b).guardRange_of_outside _ hr

/-- A skip does not read `ST`. -/
theorem State.skipIf_setSt (s : State) (b : Byte) (c : Bool) : (s.setSt b).skipIf c = (s.skipIf c).setSt b := by
  cases c <;> rfl

/-- RET does not read `ST`. -/
theorem execRet_setSt {s t : State} (b : Byte) (h : execRet s = .next t) :
    execRet (s.setSt b) = .next (t.setSt b) := by
  rcases execRet_next h with ⟨hp, rfl⟩ | ⟨h0, rfl⟩
  · exact execRet_of_pos (s.setSt b) hp
  · exact execRet_of_empty (s.setSt b) h0

/-- CALL does not read `ST`. -/
theorem execCall_setSt {nnn : BitVec 12} {s t : State} (b : Byte) (h : execCall nnn s = .next t) :
    execCall nnn (s.setSt b) = .next (t.setSt b) := by
  rcases execCall_next h with ⟨hp, rfl⟩ | ⟨h16, rfl⟩
  · exact execCall_of_lt nnn (s.setSt b) hp
  · exact execCall_of_full nnn (s.setSt b) h16

/-- The key wait does not read `ST`. -/
theorem execLdVxK_setSt {x : Reg} {s t : State} (b : Byte) (h : execLdVxK x s = .next t) :
    execLdVxK x (s.setSt b) = .next (t.setSt b) := by
  have hkeys : (s.setSt b).lowestKey = s.lowestKey := rfl
  rcases execLdVxK_next h with ⟨k, hk, rfl⟩ | ⟨hk, rfl⟩
  · rw [execLdVxK, hkeys, hk]
    rfl
  · rw [execLdVxK, hkeys, hk]
    rfl

/-- With `ST` set before the execute stage, its next state is the one without, `ST` set after; but `FX18`, which writes
`ST`, has the very same next state. -/
theorem exec_setSt {i : Instr} {s t : State} (b : Byte) (h : exec i s = .next t) :
    exec i (s.setSt b) = .next (t.setSt b) ∨ exec i (s.setSt b) = .next t := by
  cases i with
  | ldStVx x => exact .inr h
  | ret => exact .inl (execRet_setSt b h)
  | call nnn => exact .inl (execCall_setSt b h)
  | ldVxK x => exact .inl (execLdVxK_setSt b h)
  | drw | ldB | ldMemVx | ldVxMem =>
    have hset := State.guardRange_setSt b h
    exact .inl hset
  | seImm | sneImm | seReg | sneReg | skp | sknp =>
    obtain rfl := Host.Outcome.next.inj h
    exact .inl (congrArg Host.Outcome.next (s.skipIf_setSt b _))
  | _ =>
    obtain rfl := Host.Outcome.next.inj h
    exact .inl rfl

/-- Settles O60: in both cases of `exec_setSt` the two next states differ at most in `ST`. -/
theorem noInstructionReadsTheSoundTimer : Obligations.NoInstructionReadsTheSoundTimer := by
  unfold Obligations.NoInstructionReadsTheSoundTimer
  intro i s t b h
  rcases exec_setSt b h with he | he
  · exact ⟨t.setSt b, he, rfl⟩
  · exact ⟨t, he, rfl⟩

end Sys2Proof.Machine
end

section
/-! SUPPORT. The values after reset (10_state.md R23, R31, R36, R40; 70_reset_and_hazards.md R285). -/

namespace Sys2Proof.Machine

/-- After reset every byte outside the font is 0: no cell is listed (R63, R281). -/
theorem byteAt_reset_of_outside_font {a : Nat} (h : a < 0x50 ∨ 0xA0 ≤ a) : State.reset.byteAt a = 0 :=
  Mem.background_eq_zero defaultFont h

/-- After reset the display is blank, so every cell is 0 (R285). -/
theorem cell_reset (y : Fin 32) (x : Fin 64) : State.reset.disp.cell y x = false := cell_blank y x

/-- Settles O1: the display and memory by the two lemmas above, every other element by evaluation. -/
theorem resetStateHasTheSpecValues : Obligations.ResetStateHasTheSpecValues := by
  unfold Obligations.ResetStateHasTheSpecValues
  exact ⟨by decide, rfl, rfl, rfl, stk_reset, rfl, rfl, rfl, cell_reset, by decide, rfl,
    fun _ _ => byteAt_reset_of_outside_font⟩

end Sys2Proof.Machine
end

section
/-! SUPPORT. What the next STEP fetches once bytes have been stored (20_memory.md R69, R78; 40_step_pipeline.md R121): a
store by an instruction, and the word placed from outside the machine (log entry 4). -/

namespace Sys2Proof.Machine

/-- STEP while FAULT is 0 and a word can be fetched: it executes the word at `pc` (R120). -/
theorem stepCommand_of_fetch {s : State} (hf : s.fault = 0) (hpc : s.pc.toNat + 1 < 4096) :
    stepCommand s =
      exec (decodeWord (wordOfBytes (s.byteAt s.pc.toNat) (s.byteAt (s.pc.toNat + 1)))) s.advance := by
  rcases stepCommand_cases s with ⟨hne, -⟩ | ⟨-, hge, -⟩ | ⟨-, -, he⟩
  · exact absurd hf hne
  · exact absurd hpc (Nat.not_lt.2 hge)
  · exact he

/-! ### A store by `FX55` or `FX33` -/

/-- STEP after a block is stored at `I`: the fetched bytes are those of the block where it covers them (R78). -/
theorem stepCommand_storeBytes {s : State} (hm : Mem.wf s.font s.mem) (hf : s.fault = 0)
    (hpc : s.pc.toNat + 1 < 4096) {us : List Byte} (hr : s.i.toNat + us.length ≤ 4096) :
    stepCommand (s.storeBytes s.i.toNat us) =
      exec (decodeWord (wordOfBytes (s.byteUnder us s.pc.toNat) (s.byteUnder us (s.pc.toNat + 1))))
        (s.storeBytes s.i.toNat us).advance := by
  rw [stepCommand_of_fetch (s := s.storeBytes s.i.toNat us) hf hpc, State.storeBytes_pc,
    State.byteAt_storeBytes_eq_byteUnder s hm us hr, State.byteAt_storeBytes_eq_byteUnder s hm us hr]

/-- `FX55` in range stores `V0` to `VX` (R185). -/
theorem execLdMemVx_of_inRange {x : Reg} {s : State} (h : s.i.toNat + x.val ≤ 4095) :
    execLdMemVx x s = .next (s.storeBytes s.i.toNat (s.regsUpTo x)) :=
  s.guardRange_of_inRange _ (.inr (by omega))

/-- `FX33` in range stores the three decimal digits (R184). -/
theorem execLdB_of_inRange {x : Reg} {s : State} (h : s.i.toNat + 2 ≤ 4095) :
    execLdB x s = .next (s.storeBytes s.i.toNat (bcdDigits (s.reg x))) :=
  s.guardRange_of_inRange _ (.inr (by omega))

/-- The block of `FX55` written by register number, as the statement about it lists it. -/
theorem State.regsUpTo_eq_ofFn (s : State) (x : Reg) :
    s.regsUpTo x = List.ofFn fun j : Fin (x.val + 1) => s.reg ⟨j.val, by omega⟩ := List.ofFn_eq_map.symm

/-- Settles O46: each instruction, in range, is one stored block, and `stepCommand_storeBytes` says what is fetched
after it. -/
theorem storeIsSeenByTheNextFetch : Obligations.StoreIsSeenByTheNextFetch := by
  unfold Obligations.StoreIsSeenByTheNextFetch
  intro x s hm hf hpc
  constructor
  · intro hr
    rw [← s.regsUpTo_eq_ofFn x]
    exact ⟨_, execLdMemVx_of_inRange hr, stepCommand_storeBytes hm hf hpc (by rw [s.length_regsUpTo]; omega)⟩
  · intro hr
    exact ⟨_, execLdB_of_inRange hr, stepCommand_storeBytes hm hf hpc (by rw [State.length_bcdDigits]; omega)⟩

/-! ### The word placed by `withFetchWord` -/

/-- Where `placeWord` leaves `pc`: where it was if a word can be fetched there, else at the entry point. -/
theorem State.placeWord_pc (s : State) (w : Word) :
    (s.placeWord w).pc = if s.pc.toNat + 1 ≥ 4096 then 0x200 else s.pc := rfl

/-- `placeWord` keeps a `pc` that can be fetched from. -/
theorem State.placeWord_pc_of_lt {s : State} (w : Word) (h : s.pc.toNat + 1 < 4096) : (s.placeWord w).pc = s.pc :=
  if_neg (Nat.not_le.2 h)

/-- After `placeWord` a word can be fetched at `pc`. -/
theorem State.placeWord_pc_lt (s : State) (w : Word) : (s.placeWord w).pc.toNat + 1 < 4096 := by
  rw [s.placeWord_pc]
  split
  case isTrue => decide
  case isFalse h => exact Nat.lt_of_not_le h

/-- `placeWord` clears FAULT. -/
@[simp] theorem State.placeWord_fault (s : State) (w : Word) : (s.placeWord w).fault = 0 := rfl

/-- `placeWord` clears the port. -/
@[simp] theorem State.placeWord_cmds (s : State) (w : Word) : (s.placeWord w).cmds = [] := rfl

/-- Byte `j` at `pc` after `placeWord` is that of the word, high byte first (R69). -/
theorem State.byteAt_placeWord {s : State} (hm : Mem.wf s.font s.mem) (w : Word) {j : Nat} (hj : j < 2) :
    (s.placeWord w).byteAt ((s.placeWord w).pc.toNat + j) = [highByte w, lowByte w][j] :=
  State.byteAt_storeBytes { s with fault := 0, cmds := [], pc := (s.placeWord w).pc } hm [highByte w, lowByte w]
    (s.placeWord_pc_lt w) j hj

/-- The step after `placeWord` executes the placed word. -/
theorem step_placeWord {s : State} (hm : Mem.wf s.font s.mem) (w : Word) :
    step (s.placeWord w) = exec (decodeWord w) (s.placeWord w).advance := by
  have hhi : (s.placeWord w).byteAt (s.placeWord w).pc.toNat = highByte w := State.byteAt_placeWord hm w Nat.two_pos
  have hlo : (s.placeWord w).byteAt ((s.placeWord w).pc.toNat + 1) = lowByte w :=
    State.byteAt_placeWord hm w Nat.one_lt_two
  calc step (s.placeWord w)
      = stepCommand (s.placeWord w) := step_of_cmds_nil (s.placeWord_cmds w)
    _ = exec (decodeWord (wordOfBytes (highByte w) (lowByte w))) (s.placeWord w).advance := by
        rw [stepCommand_of_fetch (s.placeWord_fault w) (s.placeWord_pc_lt w), hhi, hlo]
    _ = exec (decodeWord w) (s.placeWord w).advance := by rw [wordOfBytes_bytes]

/-- Settles O10: `withFetchWord` is `placeWord` of the word whose bits are given. -/
theorem placedWordIsRunNext : Obligations.PlacedWordIsRunNext := by
  unfold Obligations.PlacedWordIsRunNext
  exact fun s _ _ hm => ⟨s.placeWord_pc_lt _, State.placeWord_pc_of_lt _, step_placeWord hm _⟩

end Sys2Proof.Machine
end

section
/-! SUPPORT. The decoder and the encoder (30_encoding.md R93, R94, R97, R104): the word of a decoded instruction is the word
that was decoded, the words that decode to no instruction class by class (R100, R102), the rows of the opcode map as the
words of their instructions, and from these the round trip of every well-formed instruction. -/

namespace Sys2Proof

/-! ### The class of a word -/

/-- "One of sixteen classes" (R91). -/
theorem fieldClass_cases (w : Word) :
    fieldClass w = 0x0 ∨ fieldClass w = 0x1 ∨ fieldClass w = 0x2 ∨ fieldClass w = 0x3 ∨ fieldClass w = 0x4 ∨
    fieldClass w = 0x5 ∨ fieldClass w = 0x6 ∨ fieldClass w = 0x7 ∨ fieldClass w = 0x8 ∨ fieldClass w = 0x9 ∨
    fieldClass w = 0xA ∨ fieldClass w = 0xB ∨ fieldClass w = 0xC ∨ fieldClass w = 0xD ∨ fieldClass w = 0xE ∨
    fieldClass w = 0xF := by
  generalize fieldClass w = c
  revert c
  decide

theorem fieldClass_val (w : Word) : (fieldClass w).val = w.toNat / 4096 := by
  simp [fieldClass, Nat.shiftRight_eq_div_pow]; omega

theorem fieldN_toNat (w : Word) : (fieldN w).toNat = w.toNat % 16 := by simp [fieldN]

theorem fieldNN_toNat (w : Word) : (fieldNN w).toNat = w.toNat % 256 := by simp [fieldNN]

/-! ### The encoder after the decoder -/

theorem wordA_of_class {w : Word} {c : Fin 16} (hc : fieldClass w = c) : wordA c (fieldNNN w) = w :=
  hc ▸ wordA_fields w

theorem wordXK_of_class {w : Word} {c : Fin 16} (hc : fieldClass w = c) {nn : Byte} (hnn : fieldNN w = nn) :
    wordXK c (fieldX w) nn = w :=
  hc ▸ hnn ▸ wordXK_fields w

theorem wordXYN_of_class {w : Word} {c : Fin 16} (hc : fieldClass w = c) {n : Nibble} (hn : fieldN w = n) :
    wordXYN c (fieldX w) (fieldY w) n = w :=
  hc ▸ hn ▸ wordXYN_fields w

theorem encode_decodeClass0 (w : Word) : encode (decodeClass0 w) = w := by
  unfold decodeClass0
  split_ifs <;> simp [encode, *]

theorem encode_decodeClass8 {w : Word} (hc : fieldClass w = 0x8) : encode (decodeClass8 w) = w := by
  unfold decodeClass8
  split_ifs <;> simp [encode, wordXYN_of_class hc, *]

theorem encode_decodeClassE {w : Word} (hc : fieldClass w = 0xE) : encode (decodeClassE w) = w := by
  unfold decodeClassE
  split_ifs <;> simp [encode, wordXK_of_class hc, *]

theorem encode_decodeClassF {w : Word} (hc : fieldClass w = 0xF) : encode (decodeClassF w) = w := by
  unfold decodeClassF
  split_ifs <;> simp [encode, wordXK_of_class hc, *]

/-- Decoding loses nothing (R104). -/
@[simp] theorem encode_decodeWord (w : Word) : encode (decodeWord w) = w := by
  rcases fieldClass_cases w with
      hc | hc | hc | hc | hc | hc | hc | hc | hc | hc | hc | hc | hc | hc | hc | hc <;>
    simp only [decodeWord, hc]
  · exact encode_decodeClass0 w
  · exact wordA_of_class hc
  · exact wordA_of_class hc
  · exact wordXK_of_class hc rfl
  · exact wordXK_of_class hc rfl
  · split_ifs with hn
    · exact wordXYN_of_class hc hn
    · rfl
  · exact wordXK_of_class hc rfl
  · exact wordXK_of_class hc rfl
  · exact encode_decodeClass8 hc
  · split_ifs with hn
    · exact wordXYN_of_class hc hn
    · rfl
  · exact wordA_of_class hc
  · exact wordA_of_class hc
  · exact wordXK_of_class hc rfl
  · exact wordXYN_of_class hc rfl
  · exact encode_decodeClassE hc
  · exact encode_decodeClassF hc

/-! ### The words that decode to no instruction (R100, R102) -/

theorem decodeClass0_eq_unrec_iff (w : Word) : decodeClass0 w = .unrec w ↔ w ≠ 0x00E0#16 ∧ w ≠ 0x00EE#16 := by
  unfold decodeClass0
  split_ifs <;> simp [*]

theorem decodeClass8_eq_unrec_iff (w : Word) :
    decodeClass8 w = .unrec w ↔ fieldN w ∉ [0x0#4, 0x1#4, 0x2#4, 0x3#4, 0x4#4, 0x5#4, 0x6#4, 0x7#4, 0xE#4] := by
  unfold decodeClass8
  split_ifs <;> simp [*]

theorem decodeClassE_eq_unrec_iff (w : Word) : decodeClassE w = .unrec w ↔ fieldNN w ∉ [0x9E#8, 0xA1#8] := by
  unfold decodeClassE
  split_ifs <;> simp [*]

theorem decodeClassF_eq_unrec_iff (w : Word) :
    decodeClassF w = .unrec w ↔
      fieldNN w ∉ [0x07#8, 0x0A#8, 0x15#8, 0x18#8, 0x1E#8, 0x29#8, 0x33#8, 0x55#8, 0x65#8] := by
  unfold decodeClassF
  split_ifs <;> simp [*]

/-- A word decodes to no instruction when its class leaves it out (R102). -/
theorem decodeWord_eq_unrec_iff (w : Word) :
    decodeWord w = .unrec w ↔
      (fieldClass w = 0x0 ∧ w ≠ 0x00E0#16 ∧ w ≠ 0x00EE#16) ∨
      (fieldClass w = 0x5 ∧ fieldN w ≠ 0x0#4) ∨
      (fieldClass w = 0x8 ∧ fieldN w ∉ [0x0#4, 0x1#4, 0x2#4, 0x3#4, 0x4#4, 0x5#4, 0x6#4, 0x7#4, 0xE#4]) ∨
      (fieldClass w = 0x9 ∧ fieldN w ≠ 0x0#4) ∨
      (fieldClass w = 0xE ∧ fieldNN w ∉ [0x9E#8, 0xA1#8]) ∨
      (fieldClass w = 0xF ∧
        fieldNN w ∉ [0x07#8, 0x0A#8, 0x15#8, 0x18#8, 0x1E#8, 0x29#8, 0x33#8, 0x55#8, 0x65#8]) := by
  rw [← decodeClass0_eq_unrec_iff, ← decodeClass8_eq_unrec_iff, ← decodeClassE_eq_unrec_iff,
    ← decodeClassF_eq_unrec_iff]
  rcases fieldClass_cases w with
      hc | hc | hc | hc | hc | hc | hc | hc | hc | hc | hc | hc | hc | hc | hc | hc <;>
    simp [decodeWord, hc]

/-! ### The rows of the opcode map (R94, R97) -/

theorem Row.hits_iff (r : Row) (w : Word) : r.hits w = true ↔ w &&& r.mask = r.pattern := beq_iff_eq

/-- Where a row's mask is all ones, a matched word has the row's own bits. -/
theorem Row.slice_eq_of_hits {r : Row} {w : Word} (h : r.hits w = true) {start len : Nat}
    (hm : r.mask.extractLsb' start len = BitVec.allOnes len) :
    w.extractLsb' start len = r.pattern.extractLsb' start len := by
  rw [← (r.hits_iff w).1 h, BitVec.extractLsb'_and, hm, BitVec.and_allOnes]

/-- No word is matched by two rows: where both masks are one, two different rows differ (R94). -/
theorem Row.eq_of_hits {r r' : Row} (hr : r ∈ opcodeRows) (hr' : r' ∈ opcodeRows) {w : Word}
    (h : r.hits w = true) (h' : r'.hits w = true) : r = r' := by
  have rows_differ : ∀ r ∈ opcodeRows, ∀ r' ∈ opcodeRows, r.pattern &&& r'.mask = r'.pattern &&& r.mask → r = r' := by
    decide
  refine rows_differ r hr r' hr' ?_
  rw [← (r.hits_iff w).1 h, ← (r'.hits_iff w).1 h', BitVec.and_assoc, BitVec.and_assoc, BitVec.and_comm r.mask]

/-- Every row fixes the class (R94). -/
theorem Row.fieldClass_eq_of_hits {r : Row} (hr : r ∈ opcodeRows) {w : Word} (h : r.hits w = true) :
    fieldClass w = fieldClass r.pattern := by
  have mask_class : ∀ r ∈ opcodeRows, r.mask.extractLsb' 12 4 = BitVec.allOnes 4 := by decide
  exact congrArg BitVec.toFin (slice_eq_of_hits h (mask_class r hr))

/-- Of the rows of classes 5, 8 and 9 every one fixes `N` (R94, R95). -/
theorem Row.fieldN_eq_of_hits {r : Row} (hr : r ∈ opcodeRows) {w : Word} (h : r.hits w = true)
    (hc : fieldClass r.pattern ∈ [0x5, 0x8, 0x9]) : fieldN w = fieldN r.pattern := by
  have mask_n : ∀ r ∈ opcodeRows, fieldClass r.pattern ∈ [0x5, 0x8, 0x9] →
      r.mask.extractLsb' 0 4 = BitVec.allOnes 4 := by decide
  exact slice_eq_of_hits h (mask_n r hr hc)

/-- Of the rows of classes E and F every one fixes `NN` (R94). -/
theorem Row.fieldNN_eq_of_hits {r : Row} (hr : r ∈ opcodeRows) {w : Word} (h : r.hits w = true)
    (hc : fieldClass r.pattern ∈ [0xE, 0xF]) : fieldNN w = fieldNN r.pattern := by
  have mask_nn : ∀ r ∈ opcodeRows, fieldClass r.pattern ∈ [0xE, 0xF] →
      r.mask.extractLsb' 0 8 = BitVec.allOnes 8 := by decide
  exact slice_eq_of_hits h (mask_nn r hr hc)

/-- The rows of class 0 fix the whole word (R96). -/
theorem Row.eq_pattern_of_hits {r : Row} (hr : r ∈ opcodeRows) {w : Word} (h : r.hits w = true)
    (hc : fieldClass r.pattern = 0x0) : w = r.pattern := by
  have mask_word : ∀ r ∈ opcodeRows, fieldClass r.pattern = 0x0 → r.mask = BitVec.allOnes 16 := by decide
  rw [← (r.hits_iff w).1 h, mask_word r hr hc, BitVec.and_allOnes]

/-- A word that a row matches is an instruction: it has every field by which its class leaves words out in common with the
row's pattern, and no pattern is left out. -/
theorem decodeWord_ne_unrec_of_hits {r : Row} (hr : r ∈ opcodeRows) {w : Word} (h : r.hits w = true) :
    decodeWord w ≠ .unrec w := by
  have pattern_recognised : ∀ r ∈ opcodeRows, decodeWord r.pattern ≠ .unrec r.pattern := by decide
  refine fun hw => pattern_recognised r hr ?_
  rw [decodeWord_eq_unrec_iff] at hw ⊢
  rw [Row.fieldClass_eq_of_hits hr h] at hw
  rcases hw with ⟨hc, hw⟩ | ⟨hc, hn⟩ | ⟨hc, hn⟩ | ⟨hc, hn⟩ | ⟨hc, hnn⟩ | ⟨hc, hnn⟩
  · rw [Row.eq_pattern_of_hits hr h hc] at hw
    exact .inl ⟨hc, hw⟩
  · rw [Row.fieldN_eq_of_hits hr h (by simp [hc])] at hn
    exact .inr (.inl ⟨hc, hn⟩)
  · rw [Row.fieldN_eq_of_hits hr h (by simp [hc])] at hn
    exact .inr (.inr (.inl ⟨hc, hn⟩))
  · rw [Row.fieldN_eq_of_hits hr h (by simp [hc])] at hn
    exact .inr (.inr (.inr (.inl ⟨hc, hn⟩)))
  · rw [Row.fieldNN_eq_of_hits hr h (by simp [hc])] at hnn
    exact .inr (.inr (.inr (.inr (.inl ⟨hc, hnn⟩))))
  · rw [Row.fieldNN_eq_of_hits hr h (by simp [hc])] at hnn
    exact .inr (.inr (.inr (.inr (.inr ⟨hc, hnn⟩))))

/-! ### The row of the decoded instruction -/

theorem Instr.mem_opcodeRows_of_row {i : Instr} {r : Row} (h : i.row = some r) : r ∈ opcodeRows := by
  obtain ⟨k, -, hk⟩ := Option.bind_eq_some_iff.1 h
  exact List.mem_of_getElem? hk

theorem Instr.exists_row_or_unrec (i : Instr) : (∃ r, i.row = some r) ∨ ∃ w, i = .unrec w := by
  cases i with
  | unrec w => exact .inr ⟨w, rfl⟩
  | _ => exact .inl ⟨_, rfl⟩

/-- A decoded word has a row, or it is carried raw (R94, R101). -/
theorem decodeWord_cases (w : Word) : (∃ r, (decodeWord w).row = some r) ∨ decodeWord w = .unrec w := by
  rcases (decodeWord w).exists_row_or_unrec with h | ⟨u, h⟩
  · exact .inl h
  · have hu : u = w := by simpa [h, encode] using encode_decodeWord w
    exact .inr (hu ▸ h)

/-- The word of an instruction is matched by the instruction's row. -/
theorem hits_encode_of_row (i : Instr) : Laws.Pattern.Statement i := by
  cases i with
  | cls => exact Laws.Pattern.cls
  | ret => exact Laws.Pattern.ret
  | jp nnn => exact Laws.Pattern.jp nnn
  | call nnn => exact Laws.Pattern.call nnn
  | seImm x nn => exact Laws.Pattern.seImm x nn
  | sneImm x nn => exact Laws.Pattern.sneImm x nn
  | seReg x y => exact Laws.Pattern.seReg x y
  | ldImm x nn => exact Laws.Pattern.ldImm x nn
  | addImm x nn => exact Laws.Pattern.addImm x nn
  | ldReg x y => exact Laws.Pattern.ldReg x y
  | orReg x y => exact Laws.Pattern.orReg x y
  | andReg x y => exact Laws.Pattern.andReg x y
  | xorReg x y => exact Laws.Pattern.xorReg x y
  | addReg x y => exact Laws.Pattern.addReg x y
  | subReg x y => exact Laws.Pattern.subReg x y
  | shr x y => exact Laws.Pattern.shr x y
  | subn x y => exact Laws.Pattern.subn x y
  | shl x y => exact Laws.Pattern.shl x y
  | sneReg x y => exact Laws.Pattern.sneReg x y
  | ldI nnn => exact Laws.Pattern.ldI nnn
  | jpV0 nnn => exact Laws.Pattern.jpV0 nnn
  | rnd x nn => exact Laws.Pattern.rnd x nn
  | drw x y n => exact Laws.Pattern.drw x y n
  | skp x => exact Laws.Pattern.skp x
  | sknp x => exact Laws.Pattern.sknp x
  | ldVxDt x => exact Laws.Pattern.ldVxDt x
  | ldVxK x => exact Laws.Pattern.ldVxK x
  | ldDtVx x => exact Laws.Pattern.ldDtVx x
  | ldStVx x => exact Laws.Pattern.ldStVx x
  | addI x => exact Laws.Pattern.addI x
  | ldF x => exact Laws.Pattern.ldF x
  | ldB x => exact Laws.Pattern.ldB x
  | ldMemVx x => exact Laws.Pattern.ldMemVx x
  | ldVxMem x => exact Laws.Pattern.ldVxMem x
  | unrec w => exact Laws.Pattern.unrec w

theorem Row.hits_of_row_decodeWord {r : Row} {w : Word} (h : (decodeWord w).row = some r) : r.hits w = true := by
  simpa using hits_encode_of_row (decodeWord w) r h

/-- A row matches exactly the words that decode to its instruction (R94). -/
theorem Row.hits_iff_row_decodeWord {r : Row} (hr : r ∈ opcodeRows) (w : Word) :
    r.hits w = true ↔ (decodeWord w).row = some r := by
  refine ⟨fun h => ?_, hits_of_row_decodeWord⟩
  obtain ⟨r', h'⟩ := (decodeWord_cases w).resolve_right (decodeWord_ne_unrec_of_hits hr h)
  rw [h', eq_of_hits hr (Instr.mem_opcodeRows_of_row h') h (hits_of_row_decodeWord h')]

/-- The words that decode to no instruction are those that no row matches (R94, R100). -/
theorem recognised_eq_false_iff (w : Word) : recognised w = false ↔ decodeWord w = .unrec w := by
  rw [recognised, List.any_eq_false]
  constructor
  · intro h
    refine (decodeWord_cases w).resolve_left fun ⟨r, hr⟩ => ?_
    exact h r (Instr.mem_opcodeRows_of_row hr) (Row.hits_of_row_decodeWord hr)
  · exact fun h r hr hits => decodeWord_ne_unrec_of_hits hr hits h

/-! ### The round trips -/

theorem Instr.wellFormed_unrec_iff (w : Word) : (Instr.unrec w).WellFormed ↔ recognised w = false := by
  simp [Instr.WellFormed, Instr.wellFormed]

theorem Instr.wellFormed_of_row {i : Instr} {r : Row} (h : i.row = some r) : i.WellFormed := by
  cases i with
  | unrec w => cases h
  | _ => rfl

/-- The decoder gives no second spelling of an instruction (R104). -/
theorem decodeWord_wellFormed (w : Word) : (decodeWord w).WellFormed := by
  rcases decodeWord_cases w with ⟨r, h⟩ | h
  · exact Instr.wellFormed_of_row h
  · rw [h, Instr.wellFormed_unrec_iff, recognised_eq_false_iff, h]

/-- A well-formed instruction decodes from its word: an unrecognised word by what the map leaves out, every other
instruction by the fields its word was assembled from (R93, R104). -/
theorem decodeWord_encode {i : Instr} (h : i.WellFormed) : decodeWord (encode i) = i := by
  cases i with
  | unrec w => exact (recognised_eq_false_iff w).1 ((Instr.wellFormed_unrec_iff w).1 h)
  | cls => rfl
  | ret => rfl
  | _ => simp [encode, decodeWord, decodeClass8, decodeClassE, decodeClassF]

/-- The two bytes of an instruction are decoded as its word, and what follows them is handed back (R69, R90). -/
theorem decode_encodeBytes_append (i : Instr) (rest : List Byte) :
    decode (encodeBytes i ++ rest) = .ok (decodeWord (encode i), rest) := by
  simp [encodeBytes, decode]

/-- Settles O15, by the round trip of the word and that of its bytes. -/
theorem decodeOfEncodeIsTheInstruction : Obligations.DecodeOfEncodeIsTheInstruction := by
  unfold Obligations.DecodeOfEncodeIsTheInstruction
  intro i h
  refine ⟨decodeWord_encode h, fun rest => ?_⟩
  rw [decode_encodeBytes_append, decodeWord_encode h]

/-- Settles O16, by `encode_decodeWord` and `decodeWord_wellFormed`. -/
theorem encodeOfDecodeIsTheWord : Obligations.EncodeOfDecodeIsTheWord := by
  unfold Obligations.EncodeOfDecodeIsTheWord
  exact fun w => ⟨encode_decodeWord w, decodeWord_wellFormed w⟩

/-- Settles O17: a word of no row is unrecognised, and its execute stage is the state it is given. -/
theorem decodeFollowsTheOpcodeMap : Obligations.DecodeFollowsTheOpcodeMap := by
  unfold Obligations.DecodeFollowsTheOpcodeMap
  refine ⟨rfl, fun w r hr => (r.hits_iff w).symm.trans (Row.hits_iff_row_decodeWord hr w), fun w h => ?_⟩
  have hw : decodeWord w = .unrec w := by
    rw [← recognised_eq_false_iff, recognised, List.any_eq_false]
    exact fun r hr => mt (r.hits_iff w).1 (h r hr)
  exact ⟨hw, fun s => by rw [hw]; rfl⟩

/-! ### The list of unrecognised words (R102), its fields read as numbers -/

theorem fieldClass_eq_iff (w : Word) (c : Fin 16) : fieldClass w = c ↔ w.toNat / 4096 = c := by
  rw [Fin.ext_iff, fieldClass_val]

theorem fieldN_eq_iff (w : Word) (n : Nibble) : fieldN w = n ↔ w.toNat % 16 = n.toNat := by
  rw [← BitVec.toNat_inj, fieldN_toNat]

theorem fieldNN_eq_iff (w : Word) (nn : Byte) : fieldNN w = nn ↔ w.toNat % 256 = nn.toNat := by
  rw [← BitVec.toNat_inj, fieldNN_toNat]

/-- In class 0 the whole word is its low twelve bits. -/
theorem eq_iff_of_class0 {w : Word} (hc : w.toNat / 4096 = 0) (u : Word) : w = u ↔ w.toNat % 4096 = u.toNat := by
  rw [← BitVec.toNat_inj]
  omega

/-- The secondary opcodes that class 8 leaves out (R102 (c)). -/
theorem nibble_notMem_class8_iff (n : Nibble) :
    n ∉ [0x0#4, 0x1#4, 0x2#4, 0x3#4, 0x4#4, 0x5#4, 0x6#4, 0x7#4, 0xE#4] ↔
      n.toNat ∈ [8, 9, 0xA, 0xB, 0xC, 0xD, 0xF] := by
  revert n
  decide

/-- Settles O18: the six groups of `decodeWord_eq_unrec_iff`, one by one. -/
theorem unrecognisedWordsAreTheListedOnes : Obligations.UnrecognisedWordsAreTheListedOnes := by
  unfold Obligations.UnrecognisedWordsAreTheListedOnes
  intro w
  rw [decodeWord_eq_unrec_iff, nibble_notMem_class8_iff, fieldN_toNat]
  simp only [fieldClass_eq_iff, Ne, fieldN_eq_iff, List.mem_cons, List.not_mem_nil, fieldNN_eq_iff]
  refine or_congr (and_congr_right fun hc => ?_) Iff.rfl
  rw [eq_iff_of_class0 hc, eq_iff_of_class0 hc]
  rfl

/-- Settles O19, by running the decoder on each of the seven words. -/
theorem exampleWordsDecode : Obligations.ExampleWordsDecode := by
  unfold Obligations.ExampleWordsDecode
  exact ⟨rfl, rfl, rfl, rfl, rfl, rfl, rfl⟩

end Sys2Proof
end

section
/-! SUPPORT. Every instruction is completed or takes a fault (40_step_pipeline.md R125, R133). -/

namespace Sys2Proof.Machine

/-- Settles O11, by the rule that the execute stage answers a next state. -/
theorem everyInstructionAnswersANextState : Obligations.EveryInstructionAnswersANextState := by
  unfold Obligations.EveryInstructionAnswersANextState
  exact exec_answers

end Sys2Proof.Machine
end

section
/-! SUPPORT. The stages of STEP (40_step_pipeline.md R120 to R123): the halted state, which only RESET leaves (R129, R249),
the fetch fault, the word at `pc` and its decoding, and the unrecognised word (R128). -/

namespace Sys2Proof

/-- Two bytes as the number the fetch makes of them (R121). -/
theorem wordOfBytes_eq_ofNat (hi lo : Byte) : wordOfBytes hi lo = BitVec.ofNat 16 (hi.toNat * 256 + lo.toNat) := by
  apply BitVec.eq_of_toNat_eq
  rw [wordOfBytes, BitVec.toNat_append, ← Nat.shiftLeft_add_eq_or_of_lt lo.isLt, Nat.shiftLeft_eq, BitVec.toNat_ofNat]
  omega

/-- Two bytes and nothing after them are decoded as their word (R90). -/
theorem decode_pair (hi lo : Byte) : decode [hi, lo] = .ok (decodeWord (wordOfBytes hi lo), []) := rfl

/-- What two bytes decode to is what their word decodes to (R90). -/
theorem decode_pair_eq_ok {hi lo : Byte} {i : Instr} (h : decode [hi, lo] = .ok (i, [])) :
    decodeWord (wordOfBytes hi lo) = i :=
  congrArg Prod.fst (Except.ok.inj ((decode_pair hi lo).symm.trans h))

end Sys2Proof

namespace Sys2Proof.Machine

/-- STEP while halted changes nothing (R129). -/
theorem stepCommand_of_halted {s : State} (hf : s.fault ≠ 0) : stepCommand s = .next s := by
  rcases stepCommand_cases s with ⟨-, he⟩ | ⟨h0, -⟩ | ⟨h0, -⟩
  · exact he
  · exact absurd h0 hf
  · exact absurd h0 hf

/-- STEP where no word can be fetched: the fetch fault, `pc` as it was (R121). -/
theorem stepCommand_of_fetch_fault {s : State} (hf : s.fault = 0) (hpc : 4096 ≤ s.pc.toNat + 1) :
    stepCommand s = .next { s with fault := 1 } := by
  rcases stepCommand_cases s with ⟨hne, -⟩ | ⟨-, -, he⟩ | ⟨-, hlt, -⟩
  · exact absurd hf hne
  · exact he
  · exact absurd hpc (Nat.not_le.2 hlt)

/-- STEP where the two bytes at `pc` decode to `i`: it executes `i` (R123). -/
theorem stepCommand_of_decode {s : State} {i : Instr} (hf : s.fault = 0) (hpc : s.pc.toNat + 1 < 4096)
    (h : decode [s.byteAt s.pc.toNat, s.byteAt (s.pc.toNat + 1)] = .ok (i, [])) :
    stepCommand s = exec i s.advance := by
  rw [stepCommand_of_fetch hf hpc, decode_pair_eq_ok h]

/-- The execute stage of an unrecognised word is the state it is given (R128). -/
@[simp] theorem exec_unrec (w : Word) (s : State) : exec (.unrec w) s = .next s := rfl

/-- Settles O7, one rule of STEP per case. -/
theorem stepCommandStages : Obligations.StepCommandStages := by
  unfold Obligations.StepCommandStages
  refine fun s => ⟨stepCommand_of_halted, stepCommand_of_fetch_fault, fun hf hpc => ?_⟩
  rw [← wordOfBytes_eq_ofNat]
  exact stepCommand_of_fetch hf hpc

/-- Settles O14, command by command: STEP does nothing while halted, TICK and SETKEY do what they always do (R255). -/
theorem onlyResetLeavesTheHaltedState : Obligations.OnlyResetLeavesTheHaltedState := by
  unfold Obligations.OnlyResetLeavesTheHaltedState
  intro c s hf hc
  cases c with
  | reset rom => exact absurd rfl (hc rom)
  | step => exact ⟨s, stepCommand_of_halted hf, rfl, rfl, fun _ => rfl⟩
  | idle => exact ⟨s, runCommand_idle s, rfl, rfl, fun _ => rfl⟩
  | tick => exact ⟨s.tick, rfl, s.tick_fault, rfl, nofun⟩
  | setKey k p => exact ⟨s.setKey k p, rfl, s.setKey_fault k p, rfl, nofun⟩

/-- Settles O8: the step is STEP, of `s` itself or of `s` with STEP taken off the port, and both fetch the same bytes. -/
theorem stepRunsTheDecodedInstruction : Obligations.StepRunsTheDecodedInstruction := by
  unfold Obligations.StepRunsTheDecodedInstruction
  intro s i hf hpc h
  refine ⟨decode_pair_eq_ok h ▸ decodeWord_wellFormed _, fun hnil => ?_, fun rest hcons => ?_⟩
  · exact (step_of_cmds_nil hnil).trans (stepCommand_of_decode hf hpc h)
  · exact (step_of_cmds_cons hcons).trans (stepCommand_of_decode (s := { s with cmds := rest }) hf hpc h)

/-- Settles O20: the decoder answers `unrec` on exactly the words that no row matches. -/
theorem unrecognisedWordDoesNothing : Obligations.UnrecognisedWordDoesNothing := by
  unfold Obligations.UnrecognisedWordDoesNothing
  refine fun w s => ⟨exec_unrec w s, (recognised_eq_false_iff w).1, fun hrec hdec => ?_⟩
  exact absurd ((recognised_eq_false_iff w).2 hdec) (by rw [hrec]; decide)

end Sys2Proof.Machine
end

section
/-! SUPPORT. The control-flow instructions (41_control_flow.md R140 to R147): each word decodes to its instruction, and the
execute stage is one update of `pc`, with the stack in the case of CALL and RET. -/

namespace Sys2Proof

/-- A word that a well-formed instruction is encoded as decodes to it (R97, R104). -/
theorem decodeWord_of_encode {i : Instr} {w : Word} (hi : i.WellFormed) (hw : encode i = w) : decodeWord w = i :=
  hw ▸ decodeWord_encode hi

end Sys2Proof

namespace Sys2Proof.Machine

/-! ### Skips -/

/-- A skip is an update of `pc` alone (R149). -/
theorem State.skipIf_eq (s : State) (c : Bool) : s.skipIf c = { s with pc := if c then s.pc + 2 else s.pc } := by
  cases c with
  | false => rfl
  | true => rfl

/-- The skip on equal operands (R143, R145). -/
theorem State.skipIf_beq (s : State) (a b : Byte) :
    s.skipIf (a == b) = { s with pc := if a = b then s.pc + 2 else s.pc } := by
  simp only [State.skipIf_eq, beq_iff_eq]

/-- The skip on different operands (R144, R146). -/
theorem State.skipIf_bne (s : State) (a b : Byte) :
    s.skipIf (a != b) = { s with pc := if a = b then s.pc else s.pc + 2 } := by
  simp only [State.skipIf_eq, bne_iff_ne, ne_eq, ite_not]

/-- Settles O24, by the skip on equal operands. -/
theorem skipIfEqualImmediate : Obligations.SkipIfEqualImmediate := by
  unfold Obligations.SkipIfEqualImmediate
  exact fun x nn s => ⟨decodeWord_of_encode rfl rfl, congrArg Host.Outcome.next (s.skipIf_beq (s.reg x) nn)⟩

/-- Settles O25, by the skip on different operands. -/
theorem skipIfNotEqualImmediate : Obligations.SkipIfNotEqualImmediate := by
  unfold Obligations.SkipIfNotEqualImmediate
  exact fun x nn s => ⟨decodeWord_of_encode rfl rfl, congrArg Host.Outcome.next (s.skipIf_bne (s.reg x) nn)⟩

/-- The execute stage of `5XY0` (R145). -/
theorem exec_seReg (x y : Reg) (s : State) :
    exec (.seReg x y) s = .next { s with pc := if s.reg x = s.reg y then s.pc + 2 else s.pc } :=
  congrArg Host.Outcome.next (s.skipIf_beq (s.reg x) (s.reg y))

/-- The execute stage of `9XY0` (R146). -/
theorem exec_sneReg (x y : Reg) (s : State) :
    exec (.sneReg x y) s = .next { s with pc := if s.reg x = s.reg y then s.pc else s.pc + 2 } :=
  congrArg Host.Outcome.next (s.skipIf_bne (s.reg x) (s.reg y))

/-- Settles O26: with `X = Y` the comparison is of a register with itself. -/
theorem skipIfRegistersEqual : Obligations.SkipIfRegistersEqual := by
  unfold Obligations.SkipIfRegistersEqual
  refine fun x y s => ⟨decodeWord_of_encode rfl rfl, exec_seReg x y s, ?_⟩
  rw [exec_seReg, if_pos rfl]

/-- Settles O27: with `X = Y` the comparison is of a register with itself. -/
theorem skipIfRegistersDiffer : Obligations.SkipIfRegistersDiffer := by
  unfold Obligations.SkipIfRegistersDiffer
  refine fun x y s => ⟨decodeWord_of_encode rfl rfl, exec_sneReg x y s, ?_⟩
  rw [exec_sneReg, if_pos rfl]

/-! ### Jumps -/

/-- The target of `BNNN` is the unreduced sum (R147): two such operands never reach the width of `pc`. -/
theorem addressOperand_add_wideOperand_toNat (nnn : BitVec 12) (b : Byte) :
    (addressOperand nnn + wideOperand b).toNat = nnn.toNat + b.toNat := by
  rw [BitVec.toNat_add, addressOperand_toNat, wideOperand_toNat]
  omega

/-- Settles O22: the target is `NNN` itself. -/
theorem jumpSetsPc : Obligations.JumpSetsPc := by
  unfold Obligations.JumpSetsPc
  exact fun nnn s => ⟨decodeWord_of_encode rfl rfl, s.setPc (addressOperand nnn), rfl, addressOperand_toNat nnn, rfl⟩

/-- Settles O28: the target is the unreduced sum. -/
theorem jumpWithOffsetAddsV0 : Obligations.JumpWithOffsetAddsV0 := by
  unfold Obligations.JumpWithOffsetAddsV0
  exact fun nnn s => ⟨decodeWord_of_encode rfl rfl, s.setPc (addressOperand nnn + wideOperand (s.reg 0)), rfl,
    addressOperand_add_wideOperand_toNat nnn (s.reg 0), rfl⟩

/-! ### The stack -/

/-- The stack once an entry is written: that entry, and the others kept (R38). -/
theorem getElem_set_stk (stk : Vector Word 16) (k j : Fin 16) (w : Word) :
    (stk.set k w)[j] = if j = k then w else stk[j] := by
  simp only [Fin.getElem_fin, Vector.getElem_set, Fin.ext_iff, eq_comm]

/-- Settles O23: `SP` names the entry that is written, unless the stack is full. -/
theorem callPushesTheReturnAddress : Obligations.CallPushesTheReturnAddress := by
  unfold Obligations.CallPushesTheReturnAddress
  refine fun nnn s => ⟨decodeWord_of_encode rfl rfl, fun k hk => ?_, execCall_of_full nnn s⟩
  refine ⟨_, execCall_of_lt nnn s (by omega), fun j => ?_, congrArg (· + 1) hk, addressOperand_toNat nnn, rfl⟩
  simp only [hk]
  exact getElem_set_stk s.stk k j s.pc

/-- Settles O21: the entry below `SP` is the one popped, unless the stack is empty. -/
theorem retPopsTheReturnAddress : Obligations.RetPopsTheReturnAddress := by
  unfold Obligations.RetPopsTheReturnAddress
  refine ⟨rfl, fun s k hk => ⟨_, execRet_of_pos s (by omega), ?_, Nat.sub_eq_of_eq_add hk, rfl⟩, execRet_of_empty⟩
  simp only [hk, Nat.add_sub_cancel, Fin.getElem_fin]

end Sys2Proof.Machine
end

section
/-! SUPPORT. The register, arithmetic, logic, shift and random instructions (42_alu.md R160 to R173): what the registers
hold after one write and after the two writes of R161 in either order, the arithmetic laws of R160, and the statement of
each instruction from the two. -/

namespace Sys2Proof.Machine

/-! ### Register writes -/

/-- After a write to `V[X]`, `V[X]` holds what was written. -/
theorem State.reg_setReg_self (s : State) (x : Reg) (b : Byte) : (s.setReg x b).reg x = b := by
  rw [State.reg_setReg, if_pos rfl]

/-- A write to `V[X]` leaves every other register. -/
theorem State.reg_setReg_of_ne (s : State) {x r : Reg} (b : Byte) (h : r ≠ x) : (s.setReg x b).reg r = s.reg r := by
  rw [State.reg_setReg, if_neg h]

/-- `VF` is written second and stands, whatever `X` is (R161). -/
theorem State.reg_setRegThenFlag_vf (s : State) (x : Reg) (b flag : Byte) :
    (s.setRegThenFlag x b flag).reg vf = flag :=
  (s.setReg x b).reg_setReg_self vf flag

/-- `V[X]` written first stands unless the flag goes to the same register (R161). -/
theorem State.reg_setRegThenFlag_self (s : State) {x : Reg} (b flag : Byte) (h : x ≠ vf) :
    (s.setRegThenFlag x b flag).reg x = b :=
  ((s.setReg x b).reg_setReg_of_ne flag h).trans (s.reg_setReg_self x b)

/-- The result and the flag leave every register that is neither `V[X]` nor `VF`. -/
theorem State.reg_setRegThenFlag_of_ne (s : State) {x r : Reg} (b flag : Byte) (hx : r ≠ x) (hf : r ≠ vf) :
    (s.setRegThenFlag x b flag).reg r = s.reg r :=
  ((s.setReg x b).reg_setReg_of_ne flag hf).trans (s.reg_setReg_of_ne b hx)

/-- `V[X]` is written second and stands, whatever `X` is (R161). -/
theorem State.reg_setFlagThenReg_self (s : State) (x : Reg) (b flag : Byte) :
    (s.setFlagThenReg x b flag).reg x = b :=
  (s.setReg vf flag).reg_setReg_self x b

/-- `VF` written first stands unless the result goes to the same register (R161). -/
theorem State.reg_setFlagThenReg_vf (s : State) {x : Reg} (b flag : Byte) (h : x ≠ vf) :
    (s.setFlagThenReg x b flag).reg vf = flag :=
  ((s.setReg vf flag).reg_setReg_of_ne b h.symm).trans (s.reg_setReg_self vf flag)

/-- The flag and the result leave every register that is neither `V[X]` nor `VF`. -/
theorem State.reg_setFlagThenReg_of_ne (s : State) {x r : Reg} (b flag : Byte) (hx : r ≠ x) (hf : r ≠ vf) :
    (s.setFlagThenReg x b flag).reg r = s.reg r :=
  ((s.setReg vf flag).reg_setReg_of_ne b hx).trans (s.reg_setReg_of_ne flag hf)

/-! ### Arithmetic laws (R160) -/

/-- The flag of a condition on numbers is 1 or 0 as the condition holds (R24). -/
theorem flagByte_decide (p : Prop) [Decidable p] : flagByte (decide p) = if p then 1 else 0 := by
  simp only [flagByte, decide_eq_true_eq]

/-- The flag of a bit of a byte is that bit as a number. -/
theorem flagByte_getLsbD_toNat (a : Byte) (k : Nat) : (flagByte (a.getLsbD k)).toNat = a.toNat / 2 ^ k % 2 := by
  rw [← Nat.toNat_testBit, ← BitVec.getLsbD]
  cases a.getLsbD k with
  | false => rfl
  | true => rfl

/-- The carry out of the add (R160a). -/
theorem carryOut_eq (a b : Byte) : carryOut a b = if a.toNat + b.toNat > 255 then 1 else 0 := flagByte_decide _

/-- Not-borrow of the subtraction (R160b). -/
theorem notBorrow_eq (a b : Byte) : notBorrow a b = if a.toNat ≥ b.toNat then 1 else 0 := flagByte_decide _

/-- The bit a right shift puts out (R160d). -/
theorem shiftedOutLow_toNat (a : Byte) : (shiftedOutLow a).toNat = a.toNat % 2 := by
  rw [shiftedOutLow, flagByte_getLsbD_toNat, pow_zero, Nat.div_one]

/-- The bit a left shift puts out (R160e): a byte has no bit above bit 7. -/
theorem shiftedOutHigh_toNat (a : Byte) : (shiftedOutHigh a).toNat = a.toNat / 128 := by
  rw [shiftedOutHigh, flagByte_getLsbD_toNat]
  omega

/-- The difference modulo 256: 256 is added when there is a borrow (R160b). -/
theorem toNat_sub_eq_ite (a b : Byte) :
    (a - b).toNat = if a.toNat ≥ b.toNat then a.toNat - b.toNat else a.toNat + 256 - b.toNat := by
  rw [BitVec.toNat_sub]
  split
  case isTrue h => omega
  case isFalse h => omega

/-- The right shift by one halves (R160d). -/
theorem toNat_ushiftRight_one (a : Byte) : (a >>> 1).toNat = a.toNat / 2 := by
  rw [BitVec.toNat_ushiftRight, Nat.shiftRight_eq_div_pow, pow_one]

/-- The left shift by one doubles modulo 256 (R160e). -/
theorem toNat_shiftLeft_one (a : Byte) : (a <<< 1).toNat = a.toNat * 2 % 256 := by
  rw [BitVec.toNat_shiftLeft, Nat.shiftLeft_eq, pow_one]

/-! ### Loads, the add without a flag, and the logic instructions: one register is written -/

/-- Settles O29, by the one register write. -/
theorem loadImmediate : Obligations.LoadImmediate := by
  unfold Obligations.LoadImmediate
  exact fun x nn s => ⟨decodeWord_of_encode rfl rfl, s.setReg x nn, rfl, fun r => s.reg_setReg x r nn, rfl⟩

/-- Settles O31, by the one register write. -/
theorem copyRegister : Obligations.CopyRegister := by
  unfold Obligations.CopyRegister
  exact fun x y s =>
    ⟨decodeWord_of_encode rfl rfl, s.setReg x (s.reg y), rfl, fun r => s.reg_setReg x r (s.reg y), rfl⟩

/-- Settles O30: `VF` is one of the registers that the one write leaves, unless it is `V[X]`. -/
theorem addImmediateWrapsWithoutFlag : Obligations.AddImmediateWrapsWithoutFlag := by
  unfold Obligations.AddImmediateWrapsWithoutFlag
  refine fun x nn s => ⟨decodeWord_of_encode rfl rfl, s.setReg x (s.reg x + nn), rfl, ?_,
    fun r => s.reg_setReg_of_ne _, rfl⟩
  rw [State.reg_setReg_self, BitVec.toNat_add]

/-- Settles O32, one instruction each: the bits of the result are those of the operands combined, and `VF` is one of
the registers that the one write leaves. -/
theorem logicIsBitwiseAndKeepsTheFlag : Obligations.LogicIsBitwiseAndKeepsTheFlag := by
  unfold Obligations.LogicIsBitwiseAndKeepsTheFlag
  refine fun x y s => ⟨?or, ?and, ?xor⟩
  case or =>
    refine ⟨decodeWord_of_encode rfl rfl, s.setReg x (s.reg x ||| s.reg y), rfl, fun k _ => ?_,
      fun r => s.reg_setReg_of_ne _, rfl⟩
    rw [State.reg_setReg_self, BitVec.getLsbD_or]
  case and =>
    refine ⟨decodeWord_of_encode rfl rfl, s.setReg x (s.reg x &&& s.reg y), rfl, fun k _ => ?_,
      fun r => s.reg_setReg_of_ne _, rfl⟩
    rw [State.reg_setReg_self, BitVec.getLsbD_and]
  case xor =>
    refine ⟨decodeWord_of_encode rfl rfl, s.setReg x (s.reg x ^^^ s.reg y), rfl, fun k _ => ?_,
      fun r => s.reg_setReg_of_ne _, rfl⟩
    rw [State.reg_setReg_self, BitVec.getLsbD_xor]

/-- Settles O38: the written byte is the draw under the mask, whatever the draw is, and counting the draw writes no
register. -/
theorem randomByteIsMasked : Obligations.RandomByteIsMasked := by
  unfold Obligations.RandomByteIsMasked
  refine fun x nn s => ⟨decodeWord_of_encode rfl rfl, s.draw.2.setReg x (Config.rnd s.draws &&& nn), rfl,
    State.reg_setReg_self _ x _, fun k hk => ?_, fun r hr => ?_, rfl⟩
  · rw [State.reg_setReg_self, BitVec.getLsbD_and, hk, Bool.and_false]
  · rw [State.reg_setReg_of_ne _ _ hr, State.reg_draw]

/-! ### Add and subtract: the result is written, then the flag -/

/-- Settles O33: with `X = 0xF` the carry, written second, stands. -/
theorem addSetsCarry : Obligations.AddSetsCarry := by
  unfold Obligations.AddSetsCarry
  refine fun x y s => ⟨decodeWord_of_encode rfl rfl, s.setRegThenFlag x _ _, rfl, fun hx => ?_, ?_,
    fun r => s.reg_setRegThenFlag_of_ne _ _, rfl⟩
  · rw [s.reg_setRegThenFlag_self _ _ hx, BitVec.toNat_add]
  · exact (s.reg_setRegThenFlag_vf x _ _).trans (carryOut_eq (s.reg x) (s.reg y))

/-- The two subtractions differ in their operands `a`, `b` alone: what `V[X]` and `VF` hold after `a - b` is written to
`V[X]` and its not-borrow to `VF`. -/
theorem State.subtract_into (s : State) (x : Reg) (a b : Byte) :
    (x ≠ vf → ((s.setRegThenFlag x (a - b) (notBorrow a b)).reg x).toNat =
      if a.toNat ≥ b.toNat then a.toNat - b.toNat else a.toNat + 256 - b.toNat) ∧
    (s.setRegThenFlag x (a - b) (notBorrow a b)).reg vf = if a.toNat ≥ b.toNat then 1 else 0 := by
  refine ⟨fun hx => ?_, ?_⟩
  · rw [s.reg_setRegThenFlag_self _ _ hx, toNat_sub_eq_ite]
  · rw [s.reg_setRegThenFlag_vf, notBorrow_eq]

/-- Settles O34: with `X = 0xF` the flag, written second, stands. -/
theorem subtractSetsNotBorrow : Obligations.SubtractSetsNotBorrow := by
  unfold Obligations.SubtractSetsNotBorrow
  intro x y s
  obtain ⟨hres, hflag⟩ := s.subtract_into x (s.reg x) (s.reg y)
  exact ⟨decodeWord_of_encode rfl rfl, _, rfl, hres, hflag, fun r => s.reg_setRegThenFlag_of_ne _ _, rfl⟩

/-- Settles O35: the operands of O34 exchanged, both of them read before the first write. -/
theorem reverseSubtractSetsNotBorrow : Obligations.ReverseSubtractSetsNotBorrow := by
  unfold Obligations.ReverseSubtractSetsNotBorrow
  intro x y s
  obtain ⟨hres, hflag⟩ := s.subtract_into x (s.reg y) (s.reg x)
  exact ⟨decodeWord_of_encode rfl rfl, _, rfl, hres, hflag, fun r => s.reg_setRegThenFlag_of_ne _ _, rfl⟩

/-! ### Shifts: the flag is written, then the result -/

/-- Settles O36: with `X = 0xF` the shifted value, written second, stands. -/
theorem shiftRightPutsOutBitZero : Obligations.ShiftRightPutsOutBitZero := by
  unfold Obligations.ShiftRightPutsOutBitZero
  refine fun x y s => ⟨decodeWord_of_encode rfl rfl, s.setFlagThenReg x _ _, rfl, ?_, fun hx => ?_,
    fun r => s.reg_setFlagThenReg_of_ne _ _, rfl⟩
  · rw [s.reg_setFlagThenReg_self, toNat_ushiftRight_one]
  · exact (congrArg BitVec.toNat (s.reg_setFlagThenReg_vf _ _ hx)).trans (shiftedOutLow_toNat (s.reg x))

/-- Settles O37: with `X = 0xF` the shifted value, written second, stands. -/
theorem shiftLeftPutsOutBitSeven : Obligations.ShiftLeftPutsOutBitSeven := by
  unfold Obligations.ShiftLeftPutsOutBitSeven
  refine fun x y s => ⟨decodeWord_of_encode rfl rfl, s.setFlagThenReg x _ _, rfl, ?_, fun hx => ?_,
    fun r => s.reg_setFlagThenReg_of_ne _ _, rfl⟩
  · rw [s.reg_setFlagThenReg_self, toNat_shiftLeft_one]
  · exact (congrArg BitVec.toNat (s.reg_setFlagThenReg_vf _ _ hx)).trans (shiftedOutHigh_toNat (s.reg x))

end Sys2Proof.Machine
end

section
/-! SUPPORT. The index-register and memory instructions (43_index_memory.md R181 to R187): what the three updates of `I`
put there, and the block instructions `FX33`, `FX55` and `FX65` on the two sides of their range check (R68). -/

namespace Sys2Proof.Machine

/-! ### The index register -/

/-- The sum of `FX1E` is reduced modulo 65536 (R182). -/
theorem add_wideOperand_toNat (a : Word) (b : Byte) :
    (a + wideOperand b).toNat = (a.toNat + b.toNat) % 65536 := by
  rw [BitVec.toNat_add, wideOperand_toNat]

/-- The glyph's address is not reduced: the last glyph starts at 0x9B (R183). -/
theorem glyphOperand_toNat (b : Byte) : (glyphOperand b).toNat = 0x50 + b.toNat % 16 * 5 := by
  rw [glyphOperand, Config.fontBase, BitVec.toNat_ofNat]
  omega

/-- Settles O39: `NNN` is zero-extended. -/
theorem loadIndexImmediate : Obligations.LoadIndexImmediate := by
  unfold Obligations.LoadIndexImmediate
  exact fun nnn s => ⟨decodeWord_of_encode rfl rfl, s.setI (addressOperand nnn), rfl, addressOperand_toNat nnn, rfl⟩

/-- Settles O40: the sum has the width of `I`, and no register is written. -/
theorem addToIndexWrapsAtSixteenBits : Obligations.AddToIndexWrapsAtSixteenBits := by
  unfold Obligations.AddToIndexWrapsAtSixteenBits
  exact fun x s => ⟨decodeWord_of_encode rfl rfl, s.setI (s.i + wideOperand (s.reg x)), rfl,
    add_wideOperand_toNat s.i (s.reg x), rfl⟩

/-- Settles O41, by the glyph's address. -/
theorem fontPointerIsTheGlyphAddress : Obligations.FontPointerIsTheGlyphAddress := by
  unfold Obligations.FontPointerIsTheGlyphAddress
  exact fun x s => ⟨decodeWord_of_encode rfl rfl, s.setI (glyphOperand (s.reg x)), rfl,
    glyphOperand_toNat (s.reg x), rfl⟩

/-! ### The range check of the block instructions -/

/-- Out of range, a guarded update is the state with `FAULT` at 1 (R68, R241). -/
theorem State.guardRange_latches_fault (s : State) {a n : Nat} (go : Result) (h : 0 < n ∧ 4096 < a + n) :
    s.guardRange a n go = .next { s with fault := 1 } :=
  (s.guardRange_of_outside go h).trans (raise_eq .addressOutOfRange s)

/-- `FX33` out of range (R184). -/
theorem execLdB_of_outside {x : Reg} {s : State} (h : s.i.toNat + 2 > 4095) :
    execLdB x s = .next { s with fault := 1 } :=
  s.guardRange_latches_fault _ (by omega)

/-- `FX55` out of range (R185). -/
theorem execLdMemVx_of_outside {x : Reg} {s : State} (h : s.i.toNat + x.val > 4095) :
    execLdMemVx x s = .next { s with fault := 1 } :=
  s.guardRange_latches_fault _ (by omega)

/-- `FX65` out of range (R186). -/
theorem execLdVxMem_of_outside {x : Reg} {s : State} (h : s.i.toNat + x.val > 4095) :
    execLdVxMem x s = .next { s with fault := 1 } :=
  s.guardRange_latches_fault _ (by omega)

/-- `FX65` in range loads `V0` to `VX` (R186). -/
theorem execLdVxMem_of_inRange {x : Reg} {s : State} (h : s.i.toNat + x.val ≤ 4095) :
    execLdVxMem x s = .next (s.setRegsUpTo x fun r => s.byteAt (s.i.toNat + r.val)) :=
  s.guardRange_of_inRange _ (.inr (by omega))

/-! ### The block instructions -/

/-- The three bytes of `FX33` as numbers: each digit fits its byte (R184). -/
theorem map_toNat_bcdDigits (b : Byte) :
    (bcdDigits b).map BitVec.toNat = [b.toNat / 100, b.toNat / 10 % 10, b.toNat % 10] := by
  have hb : b.toNat < 256 := b.isLt
  have fits {n : Nat} (h : n < 256) : (BitVec.ofNat 8 n).toNat = n := Nat.mod_eq_of_lt h
  simp only [bcdDigits, List.map_cons, List.map_nil]
  rw [fits (by omega), fits (by omega), fits (by omega)]

/-- Once the digits of `b` are stored from `a` up, digit `j` reads back at `a + j` (R184). -/
theorem State.byteAt_storeBytes_bcdDigits {s : State} (hm : Mem.wf s.font s.mem) (b : Byte) {a : Nat}
    (h : a + 2 ≤ 4095) (j : Nat) (hj : j < 3) :
    ((s.storeBytes a (bcdDigits b)).byteAt (a + j)).toNat =
      [b.toNat / 100, b.toNat / 10 % 10, b.toNat % 10][j] := by
  have hlen := State.length_bcdDigits b
  rw [s.byteAt_storeBytes hm (bcdDigits b) (by omega) j (by omega)]
  simp only [← map_toNat_bcdDigits, List.getElem_map]

/-- Once `V0` to `VX` are stored from `a` up, register `r` reads back at `a + r` (R185). -/
theorem State.byteAt_storeBytes_regsUpTo {s : State} (hm : Mem.wf s.font s.mem) {x r : Reg} (hr : r ≤ x) {a : Nat}
    (h : a + x.val ≤ 4095) : (s.storeBytes a (s.regsUpTo x)).byteAt (a + r.val) = s.reg r := by
  have hlen := s.length_regsUpTo x
  have hrx : r.val ≤ x.val := hr
  rw [s.byteAt_storeBytes hm (s.regsUpTo x) (by omega) r.val (by omega), State.getElem_regsUpTo]

/-- Settles O42: in range one block of three bytes is stored, and out of range nothing is. -/
theorem bcdStoresThreeDigits : Obligations.BcdStoresThreeDigits := by
  unfold Obligations.BcdStoresThreeDigits
  refine fun x s => ⟨decodeWord_of_encode rfl rfl, fun hm hi => ?_, execLdB_of_outside⟩
  have digit := State.byteAt_storeBytes_bcdDigits hm (s.reg x) hi
  refine ⟨_, execLdB_of_inRange hi, digit 0 (by decide), digit 1 (by decide), digit 2 (by decide),
    fun a ha => s.byteAt_storeBytes_of_outside _ ?_, rfl⟩
  rw [State.length_bcdDigits]
  omega

/-- Settles O43: in range one block of `X + 1` bytes is stored, and out of range nothing is. -/
theorem storeRegisterBlock : Obligations.StoreRegisterBlock := by
  unfold Obligations.StoreRegisterBlock
  refine fun x s => ⟨decodeWord_of_encode rfl rfl, fun hm hi => ?_, execLdMemVx_of_outside⟩
  refine ⟨_, execLdMemVx_of_inRange hi, fun r hr => State.byteAt_storeBytes_regsUpTo hm hr hi,
    fun a ha => s.byteAt_storeBytes_of_outside _ ?_, rfl⟩
  rw [State.length_regsUpTo]
  omega

/-- Settles O44: in range the registers up to `VX` are written, `VF` among them when `X = 0xF`, and out of range none
is. -/
theorem loadRegisterBlock : Obligations.LoadRegisterBlock := by
  unfold Obligations.LoadRegisterBlock
  exact fun x s => ⟨decodeWord_of_encode rfl rfl,
    fun hi => ⟨_, execLdVxMem_of_inRange hi, fun r => s.reg_setRegsUpTo x r _, rfl⟩, execLdVxMem_of_outside⟩

/-- Settles O45, by O43 and then O44: the load reads at `I + r` the byte that the store put there. -/
theorem storeThenLoadRestoresRegisters : Obligations.StoreThenLoadRestoresRegisters := by
  unfold Obligations.StoreThenLoadRestoresRegisters
  intro x s hm hi
  obtain ⟨-, hstore, -⟩ := storeRegisterBlock x s
  obtain ⟨t, ht, hstored, -, htframe⟩ := hstore hm hi
  have hti : t.i = s.i := by rw [htframe]
  refine ⟨t, ht, hti, fun t' hmem hfont hi' => ?_⟩
  have hti' : t'.i = s.i := hi'.trans hti
  obtain ⟨-, hload, -⟩ := loadRegisterBlock x t'
  obtain ⟨u, hu, hloaded, huframe⟩ := hload (by rwa [hti'])
  have hui : u.i = t'.i := by rw [huframe]
  refine ⟨u, hu, hui.trans hti', fun r hr => ?_⟩
  calc u.reg r
      = t'.byteAt (t'.i.toNat + r.val) := by rw [hloaded r, if_pos hr]
    _ = t.byteAt (s.i.toNat + r.val) := by rw [hti', State.byteAt_congr hmem hfont]
    _ = s.reg r := hstored r hr

end Sys2Proof.Machine
end

section
/-! SUPPORT. The display instructions (44_display.md R201 to R205): the clear, the draw on the two sides of its range
check, the loop of R202 as the blend of R203, and the draw that undoes itself. -/

namespace Sys2Proof.Machine

/-! ### The clear -/

/-- Settles O47: the display becomes the blank one. -/
theorem clearScreenClearsEveryCell : Obligations.ClearScreenClearsEveryCell := by
  unfold Obligations.ClearScreenClearsEveryCell
  exact ⟨decodeWord_of_encode rfl rfl, fun s => ⟨s.setDisp Display.blank, rfl, cell_blank, rfl⟩⟩

/-! ### The draw -/

/-- `DXYN` in range draws (R202). -/
theorem execDrw_of_inRange {x y : Reg} {n : Nibble} {s : State}
    (h : visibleRows n (originY (s.reg y)) = 0 ∨ s.i.toNat + visibleRows n (originY (s.reg y)) - 1 ≤ 4095) :
    execDrw x y n s = .next (s.drawSprite x y n) :=
  s.guardRange_of_inRange _ (by omega)

/-- `DXYN` out of range draws nothing (R202). -/
theorem execDrw_of_outside {x y : Reg} {n : Nibble} {s : State} (hpos : 0 < visibleRows n (originY (s.reg y)))
    (h : s.i.toNat + visibleRows n (originY (s.reg y)) - 1 > 4095) :
    execDrw x y n s = .next { s with fault := 1 } :=
  s.guardRange_latches_fault _ (by omega)

/-- The grid `S` of R203, for the rows that lie in memory at `I`, is the sprite bit read off memory. -/
theorem getMsbD_spriteMask_loadBytes (s : State) (x0 y0 rows : Nat) (v : Fin 32) (u : Fin 64) :
    (spriteMask x0 y0 (s.loadBytes s.i.toNat rows) v).getMsbD u = true ↔ s.SpriteBit x0 y0 rows v u := by
  rw [getMsbD_spriteMask, State.length_loadBytes]
  unfold State.SpriteBit
  by_cases hv : y0 ≤ v.val ∧ v.val < y0 + rows
  · have hu : u.val < min (x0 + 8) 64 ↔ u.val < x0 + 8 := by omega
    rw [List.getD_eq_getElem _ _ (by rw [State.length_loadBytes]; omega), State.getElem_loadBytes, hu]
    simp only [Bool.and_eq_true, decide_eq_true_eq, and_assoc]
  · simp only [Bool.and_eq_true, decide_eq_true_eq]
    omega

/-- The flag byte of a condition is 1 exactly when it holds (R24). -/
theorem flagByte_eq_one_iff (c : Bool) : flagByte c = 1 ↔ c = true := by
  cases c with
  | true => decide
  | false => decide

/-- The flag byte tells which of a condition and its negation holds (R24). -/
theorem flagByte_cases {c : Bool} {p : Prop} (h : c = true ↔ p) : flagByte c = 1 ∧ p ∨ flagByte c = 0 ∧ ¬p := by
  cases c with
  | true => exact .inl ⟨rfl, h.1 rfl⟩
  | false => exact .inr ⟨rfl, fun hp => Bool.false_ne_true (h.2 hp)⟩

/-- `VF` after a draw. -/
theorem State.reg_drawSprite_vf (s : State) (x y : Reg) (n : Nibble) : (s.drawSprite x y n).reg vf =
    flagByte (collides s.disp (originX (s.reg x)) (originY (s.reg y)) (s.spriteRows y n)) :=
  (s.reg_drawSprite x y vf n).trans (if_pos rfl)

/-- A draw leaves every register but `VF`. -/
theorem State.reg_drawSprite_of_ne (s : State) (x y : Reg) {r : Reg} (n : Nibble) (h : r ≠ vf) :
    (s.drawSprite x y n).reg r = s.reg r :=
  (s.reg_drawSprite x y r n).trans (if_neg h)

/-- Writing the display and a register leaves every other element. -/
theorem State.setReg_setDisp_frame (s : State) (d : Display) (r : Reg) (b : Byte) :
    (s.setDisp d).setReg r b =
      { s with v := ((s.setDisp d).setReg r b).v, disp := ((s.setDisp d).setReg r b).disp } := rfl

/-- Settles O48: in range the blend with the sprite read off memory and its collision flag, out of range the fault. -/
theorem drawBlendsTheClippedSprite : Obligations.DrawBlendsTheClippedSprite := by
  unfold Obligations.DrawBlendsTheClippedSprite
  refine fun x y n s => ⟨decodeWord_of_encode rfl rfl, ?_⟩
  rintro _ _ _ rfl rfl rfl
  refine ⟨fun hr => ⟨s.drawSprite x y n, execDrw_of_inRange hr, fun v u => ?cell, ?flag,
    fun r => s.reg_drawSprite_of_ne x y n, s.setReg_setDisp_frame _ vf _⟩, execDrw_of_outside⟩
  case cell =>
    rw [State.drawSprite_disp, cell_blend, Bool.coe_xor_iff, State.spriteRows, getMsbD_spriteMask_loadBytes]
    rfl
  case flag =>
    have hflag := flagByte_cases (collides_iff s.disp (originX (s.reg x)) (originY (s.reg y)) (s.spriteRows y n))
    rw [← State.reg_drawSprite_vf] at hflag
    simp only [State.spriteRows, getMsbD_spriteMask_loadBytes] at hflag
    exact hflag

/-! ### The draw loop -/

/-- What the loop of R202 has done, from `p` to `q`, once it has passed the set bits `S` of the sprite: every cell is
XORed with `S`, and the flag is set if a set cell met a set bit. -/
def DrawsOver (S : Fin 32 → Fin 64 → Bool) (p q : Display × Bool) : Prop :=
  (∀ v u, q.1.cell v u = (p.1.cell v u ^^ S v u)) ∧
    (q.2 = true ↔ p.2 = true ∨ ∃ v u, p.1.cell v u = true ∧ S v u = true)

/-- With no bit of the sprite passed nothing has changed. -/
theorem drawsOver_nothing (p : Display × Bool) {S : Fin 32 → Fin 64 → Bool} (hS : ∀ v u, S v u = false) :
    DrawsOver S p p := by
  simp [DrawsOver, hS]

/-- One pass after another: no cell is met twice, so the second pass sees what the first pass saw. -/
theorem DrawsOver.trans {S T U : Fin 32 → Fin 64 → Bool} {p q r : Display × Bool} (h₁ : DrawsOver S p q)
    (h₂ : DrawsOver T q r) (hU : ∀ v u, U v u = (S v u || T v u)) (hdisj : ∀ v u, S v u = true → T v u = false) :
    DrawsOver U p r := by
  obtain ⟨hcell₁, hflag₁⟩ := h₁
  obtain ⟨hcell₂, hflag₂⟩ := h₂
  constructor
  · intro v u
    rw [hcell₂, hcell₁, hU]
    cases hS : S v u with
    | false => simp
    | true => simp [hdisj v u hS]
  · have hmet : ∀ v u, q.1.cell v u = true ∧ T v u = true ↔ p.1.cell v u = true ∧ T v u = true := by
      intro v u
      rw [hcell₁]
      cases hS : S v u with
      | false => simp
      | true => simp [hdisj v u hS]
    simp only [hflag₂, hflag₁, hmet, hU, Bool.or_eq_true, and_or_left, exists_or, or_assoc]

/-- What a pass leaves is determined by where it starts. -/
theorem DrawsOver.unique {S : Fin 32 → Fin 64 → Bool} {p q r : Display × Bool} (hq : DrawsOver S p q)
    (hr : DrawsOver S p r) : q = r :=
  Prod.ext (display_ext fun v u => (hq.1 v u).trans (hr.1 v u).symm) (Bool.eq_iff_iff.2 (hq.2.trans hr.2.symm))

/-- The blend unit passes the whole sprite at once (R203). -/
theorem drawsOver_blend (d : Display) (x0 y0 : Nat) (sprite : List Byte) :
    DrawsOver (fun v u => (spriteMask x0 y0 sprite v).getMsbD u) (d, false)
      (blend d x0 y0 sprite, collides d x0 y0 sprite) :=
  ⟨cell_blend d x0 y0 sprite, by simp [collides_iff]⟩

/-- A toggle changes one cell. -/
theorem cell_toggle (d : Display) (y v : Fin 32) (x u : Fin 64) :
    (d.toggle y x).cell v u = (d.cell v u ^^ decide (v = y ∧ u.val = x.val)) := by
  unfold Display.toggle Display.cell
  by_cases hv : v = y
  · subst hv
    have hbit : 63 - x.val = 63 - u.val ↔ u.val = x.val := by omega
    have hlt : 63 - x.val < 64 := by omega
    simp [BitVec.getMsbD_eq_getLsbD, BitVec.getLsbD_twoPow, hbit, hlt]
  · have hv' : y.val ≠ v.val := fun h => hv (Fin.ext h.symm)
    simp [hv, hv']

/-- A toggle passes one set bit. -/
theorem drawsOver_toggle (d : Display) (flag : Bool) (y : Fin 32) (x : Fin 64) :
    DrawsOver (fun v u => decide (v = y ∧ u.val = x.val)) (d, flag) (d.toggle y x, flag || d.cell y x) := by
  refine ⟨fun v u => cell_toggle d y v x u, ?_⟩
  simp [← Fin.ext_iff]

/-- The bits of sprite byte `b` in row `y` from its column `c` on (R200). -/
def rowBitsFrom (x0 : Nat) (y : Fin 32) (b : Byte) (c : Nat) (v : Fin 32) (u : Fin 64) : Bool :=
  decide (v = y ∧ x0 + c ≤ u ∧ u < x0 + 8) && b.getLsbD (7 - (u - x0))

/-- The bit of column `c`, and the bits of the columns after it. -/
theorem rowBitsFrom_eq_or (x0 : Nat) (y : Fin 32) (b : Byte) {c : Nat} (hc : c < 8) (v : Fin 32) (u : Fin 64) :
    rowBitsFrom x0 y b c v u =
      (decide (v = y ∧ u.val = x0 + c) && b.getLsbD (7 - c) || rowBitsFrom x0 y b (c + 1) v u) := by
  unfold rowBitsFrom
  by_cases hu : u.val = x0 + c
  · simp [hu, hc]
  · have : x0 + c ≤ u.val ↔ x0 + (c + 1) ≤ u.val := by omega
    simp [hu, this]

/-- The first byte of a sprite, and the bytes below it. -/
theorem getMsbD_spriteMask_cons (x0 : Nat) {y : Nat} (hy : y < 32) (b : Byte) (bs : List Byte) (v : Fin 32)
    (u : Fin 64) : (spriteMask x0 y (b :: bs) v).getMsbD u =
      (rowBitsFrom x0 ⟨y, hy⟩ b 0 v u || (spriteMask x0 (y + 1) bs v).getMsbD u) := by
  rw [getMsbD_spriteMask, getMsbD_spriteMask, rowBitsFrom]
  rcases Nat.lt_trichotomy v y with hv | hv | hv
  · have h₁ : ¬y ≤ v.val := by omega
    have h₂ : ¬y + 1 ≤ v.val := by omega
    simp [h₁, h₂, Fin.ext_iff, hv.ne]
  · simp [hv, Fin.ext_iff]
  · have hlen : y + (bs.length + 1) = y + 1 + bs.length := by omega
    have hidx : v.val - y = (v.val - (y + 1)) + 1 := by omega
    have hle : y ≤ v.val ↔ y + 1 ≤ v.val := by omega
    simp [Fin.ext_iff, hv.ne', hlen, hidx, hle]

/-- Past the last column of the byte, and past the right edge, there is no bit (R202, R204c). -/
theorem rowBitsFrom_eq_false (x0 : Nat) (y : Fin 32) (b : Byte) {c : Nat} (hc : 8 ≤ c ∨ 64 ≤ x0 + c) (v : Fin 32)
    (u : Fin 64) : rowBitsFrom x0 y b c v u = false := by
  have hout : ¬(v = y ∧ x0 + c ≤ u.val ∧ u.val < x0 + 8) := by omega
  rw [rowBitsFrom, decide_eq_false hout, Bool.false_and]

/-- A clear column has no bit to pass. -/
theorem rowBitsFrom_of_clear (x0 : Nat) (y : Fin 32) {b : Byte} {c : Nat} (hc : c < 8)
    (hb : ¬b.getLsbD (7 - c) = true) : rowBitsFrom x0 y b c = rowBitsFrom x0 y b (c + 1) := by
  funext v u
  rw [rowBitsFrom_eq_or x0 y b hc, Bool.eq_false_of_not_eq_true hb, Bool.and_false, Bool.false_or]

/-- The inner loop from column `c` on passes the bits of its row. -/
theorem drawsOver_drawColumns (x0 : Nat) (y : Fin 32) (b : Byte) (fuel c : Nat) (p : Display × Bool)
    (hc : c + fuel = 8) : DrawsOver (rowBitsFrom x0 y b c) p (drawColumns x0 y b fuel c p) := by
  induction fuel generalizing c p with
  | zero => exact drawsOver_nothing p (rowBitsFrom_eq_false x0 y b (.inl (by omega)))
  | succ fuel ih =>
    obtain ⟨d, flag⟩ := p
    have rest := fun p => ih (c + 1) p (by omega)
    rw [drawColumns]
    split
    case isTrue hx =>
      split
      case isTrue hb =>
        refine (drawsOver_toggle d flag y ⟨x0 + c, hx⟩).trans (rest _) (fun v u => ?_) fun v u h => ?_
        · rw [rowBitsFrom_eq_or x0 y b (by omega), hb, Bool.and_true]
        · obtain ⟨-, hu⟩ := of_decide_eq_true h
          simp [rowBitsFrom, hu]
      case isFalse hb =>
        rw [rowBitsFrom_of_clear x0 y (by omega) hb]
        exact rest (d, flag)
    case isFalse hx => exact drawsOver_nothing _ (rowBitsFrom_eq_false x0 y b (.inr (by omega)))

/-- The outer loop passes the bits of the rows it draws. -/
theorem drawsOver_drawRows (x0 : Nat) (sprite : List Byte) (y : Nat) (p : Display × Bool)
    (hy : y + sprite.length ≤ 32) :
    DrawsOver (fun v u => (spriteMask x0 y sprite v).getMsbD u) p (drawRows x0 y sprite p) := by
  induction sprite generalizing y p with
  | nil => exact drawsOver_nothing p fun v u => by simp [getMsbD_spriteMask]
  | cons b bs ih =>
    rw [List.length_cons] at hy
    have hlt : y < 32 := by omega
    rw [drawRows, dif_pos hlt]
    refine (drawsOver_drawColumns x0 ⟨y, hlt⟩ b 8 0 p rfl).trans (ih (y + 1) _ (by omega))
      (getMsbD_spriteMask_cons x0 hlt b bs) fun v u h => ?_
    obtain ⟨hv, -⟩ := of_decide_eq_true (Bool.and_elim_left h)
    simp [getMsbD_spriteMask, hv]

/-- Settles O49: loop and blend unit pass the same bits from the same display. -/
theorem blendUnitRefinesTheDrawLoop : Obligations.BlendUnitRefinesTheDrawLoop := by
  unfold Obligations.BlendUnitRefinesTheDrawLoop
  exact fun d x0 y0 sprite _ hy =>
    (drawsOver_drawRows x0 sprite y0 (d, false) hy).unique (drawsOver_blend d x0 y0 sprite)

/-! ### The clipped draw, and the draw that undoes itself -/

/-- The sprite of R205: of eight set bits from column 60 on, four are on the screen. -/
theorem spriteBit_full_row_at_60 {s : State} (hb : s.byteAt s.i.toNat = 0xFF) (v : Fin 32) (u : Fin 64) :
    s.SpriteBit 60 0 1 v u ↔ v.val = 0 ∧ 60 ≤ u.val := by
  have hset : ∀ k : Nat, k < 8 → (0xFF : Byte).getLsbD k = true := by decide
  unfold State.SpriteBit
  constructor
  · rintro ⟨-, hv, hu, -, -⟩
    omega
  · rintro ⟨hv, hu⟩
    refine ⟨by omega, by omega, hu, by omega, ?_⟩
    rw [hv, Nat.sub_self, Nat.add_zero, hb]
    exact hset _ (by omega)

/-- The sprite clipped at the right edge over a clear display (R205). -/
theorem execDrw_full_row_at_60 {x y : Reg} {s : State} (hx : s.reg x = 60) (hy : s.reg y = 0)
    (hi : s.i.toNat ≤ 4095) (hb : s.byteAt s.i.toNat = 0xFF) (hclear : ∀ v u, s.disp.cell v u = false) :
    ∃ t, exec (.drw x y 1) s = .next t ∧ t.reg 15 = 0 ∧
      ∀ (v : Fin 32) (u : Fin 64), t.disp.cell v u = true ↔ v.val = 0 ∧ 60 ≤ u.val := by
  obtain ⟨-, hdraw⟩ := drawBlendsTheClippedSprite x y 1 s
  obtain ⟨hin, -⟩ := hdraw 60 0 1 (by rw [hx]; rfl) (by rw [hy]; rfl) rfl
  obtain ⟨t, ht, hcell, hflag, -, -⟩ := hin (.inr hi)
  simp only [hclear, Bool.false_eq_true, false_and, exists_false, and_false, false_or, not_false_eq_true,
    and_true] at hflag
  refine ⟨t, ht, hflag, fun v u => ?_⟩
  simp only [hcell, hclear, Bool.false_eq_true, xor_false, id_eq, spriteBit_full_row_at_60 hb]

/-- A sprite blended twice at one place leaves the display as it was (R204f). -/
theorem blend_blend (d : Display) (x0 y0 : Nat) (sprite : List Byte) :
    blend (blend d x0 y0 sprite) x0 y0 sprite = d :=
  display_ext fun v u => by rw [cell_blend, cell_blend, Bool.xor_assoc, Bool.xor_self, Bool.xor_false]

/-- Over a clear display the lit cells are the set bits of the sprite, so a second draw meets every lit cell (R205). -/
theorem collides_blend_of_clear {d : Display} (hclear : ∀ v u, d.cell v u = false) (x0 y0 : Nat)
    (sprite : List Byte) : collides (blend d x0 y0 sprite) x0 y0 sprite = true ↔
      ∃ (v : Fin 32) (u : Fin 64), (blend d x0 y0 sprite).cell v u = true := by
  simp only [collides_iff, cell_blend, hclear, Bool.false_xor, and_self]

/-- The sprite rows depend on memory, `I` and the register with the row. -/
theorem State.spriteRows_drawSprite (s : State) (x : Reg) {y : Reg} (n : Nibble) (hy : y ≠ vf) :
    (s.drawSprite x y n).spriteRows y n = s.spriteRows y n := by
  simp only [spriteRows, loadBytes, drawSprite_i, byteAt_drawSprite, s.reg_drawSprite_of_ne x y n hy]

/-- At most 15 rows are drawn. -/
theorem visibleRows_le (n : Nibble) (y0 : Nat) : visibleRows n y0 ≤ 15 :=
  (Nat.min_le_left _ _).trans (Nat.le_of_lt_succ n.isLt)

/-- With 15 bytes of memory from `I` up every draw completes. -/
theorem execDrw_of_room {s : State} (h : s.i.toNat + 15 ≤ 4096) (x y : Reg) (n : Nibble) :
    execDrw x y n s = .next (s.drawSprite x y n) := by
  have hrows := visibleRows_le n (originY (s.reg y))
  exact execDrw_of_inRange (by omega)

/-- Two draws in a row blend the same sprite at the same place, unless `VF` gives the place. -/
theorem State.drawSprite_drawSprite_disp (s : State) {x y : Reg} (n : Nibble) (hx : x ≠ vf) (hy : y ≠ vf) :
    ((s.drawSprite x y n).drawSprite x y n).disp = s.disp := by
  rw [drawSprite_disp, s.reg_drawSprite_of_ne x y n hx, s.reg_drawSprite_of_ne x y n hy,
    s.spriteRows_drawSprite x n hy, drawSprite_disp, blend_blend]

/-- The flag of the second of two draws over a clear display (R205). -/
theorem State.drawSprite_drawSprite_vf {s : State} {x y : Reg} (n : Nibble) (hx : x ≠ vf) (hy : y ≠ vf)
    (hclear : ∀ v u, s.disp.cell v u = false) : ((s.drawSprite x y n).drawSprite x y n).reg vf = 1 ↔
      ∃ (v : Fin 32) (w : Fin 64), (s.drawSprite x y n).disp.cell v w = true := by
  rw [reg_drawSprite_vf, s.reg_drawSprite_of_ne x y n hx, s.reg_drawSprite_of_ne x y n hy,
    s.spriteRows_drawSprite x n hy, drawSprite_disp, flagByte_eq_one_iff, collides_blend_of_clear hclear]

/-- Settles O50: the clipped sprite by O48, the two draws by what the second blend undoes and meets. -/
theorem drawClipsAndUndoesItself : Obligations.DrawClipsAndUndoesItself := by
  unfold Obligations.DrawClipsAndUndoesItself
  refine ⟨fun x y s => execDrw_full_row_at_60, fun x y n s hx hy hi => ?_⟩
  have hi' : (s.drawSprite x y n).i.toNat + 15 ≤ 4096 := by rwa [State.drawSprite_i]
  exact ⟨_, _, execDrw_of_room hi x y n, execDrw_of_room hi' x y n, s.drawSprite_drawSprite_disp n hx hy,
    State.drawSprite_drawSprite_vf n hx hy⟩

end Sys2Proof.Machine
end

section
/-! SUPPORT. The keypad and timer instructions (45_keypad_timers.md R216 to R221): which key the operand names, which key
the wait takes, and when the tone sounds. -/

namespace Sys2Proof.Machine

/-! ### The keypad -/

/-- The key operand is the one key whose number is the low 4 bits (R103, R216). -/
theorem keyOperand_eq_of_val {k : Fin 16} {b : Byte} (h : k.val = b.toNat % 16) : keyOperand b = k := Fin.ext h.symm

/-- The skip on the negation of a bit (R217). -/
theorem State.skipIf_not (s : State) (c : Bool) : s.skipIf (!c) = { s with pc := if c then s.pc else s.pc + 2 } := by
  cases c with
  | false => rfl
  | true => rfl

/-- A pressed key with none below it pressed is the lowest pressed key (R218). -/
theorem State.lowestKey_of_pressed {s : State} {k : Fin 16} (hk : s.key[k] = true)
    (hlow : ∀ j : Fin 16, j < k → s.key[j] = false) : s.lowestKey = some k := by
  cases h : s.lowestKey with
  | none => exact absurd hk (Bool.eq_false_iff.1 (State.lowestKey_eq_none h k))
  | some m =>
    obtain ⟨hm, hbelow⟩ := State.lowestKey_eq_some h
    have hkm : ¬k < m := fun hlt => Bool.eq_false_iff.1 (hbelow k hlt) hk
    have hmk : ¬m < k := fun hlt => Bool.eq_false_iff.1 (hlow m hlt) hm
    rw [le_antisymm (not_lt.1 hkm) (not_lt.1 hmk)]

/-- With no key pressed there is no lowest pressed key (R218). -/
theorem State.lowestKey_of_none_pressed {s : State} (hup : ∀ k : Fin 16, s.key[k] = false) : s.lowestKey = none := by
  cases h : s.lowestKey with
  | none => rfl
  | some k => exact absurd (State.lowestKey_eq_some h).1 (Bool.eq_false_iff.1 (hup k))

/-- The execute stage of `FX0A` with a lowest pressed key (R218). -/
theorem execLdVxK_of_lowestKey {s : State} {k : Fin 16} (x : Reg) (h : s.lowestKey = some k) :
    execLdVxK x s = .next (s.setReg x (BitVec.ofNat 8 k.val)) := by
  rw [execLdVxK, h]

/-- The execute stage of `FX0A` with no key pressed (R218). -/
theorem execLdVxK_of_no_key {s : State} (x : Reg) (h : s.lowestKey = none) :
    execLdVxK x s = .next { s with pc := s.pc - 2 } := by
  rw [execLdVxK, h]
  rfl

/-- Settles O53: the key taken is the lowest pressed one, and its number fits in a register. -/
theorem waitForKeyTakesTheLowestOrRewinds : Obligations.WaitForKeyTakesTheLowestOrRewinds := by
  unfold Obligations.WaitForKeyTakesTheLowestOrRewinds
  refine fun x s => ⟨decodeWord_of_encode rfl rfl, fun k hk hlow => ?_,
    fun hup => execLdVxK_of_no_key x (State.lowestKey_of_none_pressed hup)⟩
  refine ⟨_, execLdVxK_of_lowestKey x (State.lowestKey_of_pressed hk hlow), ?_,
    fun r => s.reg_setReg_of_ne _, rfl⟩
  rw [State.reg_setReg_self, BitVec.toNat_ofNat]
  omega

/-- Settles O51, by the skip on the key that the operand names. -/
theorem skipIfKeyPressed : Obligations.SkipIfKeyPressed := by
  unfold Obligations.SkipIfKeyPressed
  refine fun x k s => ⟨decodeWord_of_encode rfl rfl, fun hk => congrArg Host.Outcome.next ?_⟩
  obtain rfl := keyOperand_eq_of_val hk
  exact s.skipIf_eq _

/-- Settles O52, by the skip on the negation of the key that the operand names. -/
theorem skipIfKeyNotPressed : Obligations.SkipIfKeyNotPressed := by
  unfold Obligations.SkipIfKeyNotPressed
  refine fun x k s => ⟨decodeWord_of_encode rfl rfl, fun hk => congrArg Host.Outcome.next ?_⟩
  obtain rfl := keyOperand_eq_of_val hk
  exact s.skipIf_not _

/-! ### The timers -/

/-- The tone sounds exactly while `ST` is not 0 (R259). -/
theorem State.tone_iff (s : State) : s.tone = true ↔ s.st ≠ 0 := bne_iff_ne

/-- Settles O54: one register write of `DT`. -/
theorem readDelayTimer : Obligations.ReadDelayTimer := by
  unfold Obligations.ReadDelayTimer
  exact fun x s => ⟨decodeWord_of_encode rfl rfl, s.setReg x s.dt, rfl, fun r => s.reg_setReg x r s.dt, rfl⟩

/-- Settles O55: each timer takes the register, and the tone follows `ST`. -/
theorem timersTakeTheRegister : Obligations.TimersTakeTheRegister := by
  unfold Obligations.TimersTakeTheRegister
  exact fun x s => ⟨⟨decodeWord_of_encode rfl rfl, rfl⟩,
    decodeWord_of_encode rfl rfl, s.setSt (s.reg x), rfl, rfl, (s.setSt (s.reg x)).tone_iff⟩

end Sys2Proof.Machine
end

section
/-! SUPPORT. The faults (60_exceptions.md R241, R244): one rule of the execute stage, that an instruction for which
the table gives a fault latches it and does nothing else, and that any other leaves `FAULT` alone. -/

namespace Sys2Proof.Machine

/-- From `s` the fault of code `c` is taken: with `c = 0` there is none and `FAULT` is left alone, and any other `c` is
latched with nothing else changed (R244). -/
def TakesFault (c : BitVec 2) (s t : State) : Prop :=
  (c = 0 ∧ t.fault = s.fault) ∨ ∃ f : Fault, c = f.code ∧ t = { s with fault := f.code }

/-- From `FAULT = 0` the code taken is what `FAULT` holds afterwards. -/
theorem TakesFault.fault_eq {c : BitVec 2} {s t : State} (h : TakesFault c s t) (hs : s.fault = 0) : t.fault = c := by
  rcases h with ⟨rfl, ht⟩ | ⟨f, rfl, rfl⟩
  · exact ht.trans hs
  · rfl

/-- From `FAULT = 0` either `FAULT` stays 0 or nothing else has changed. -/
theorem TakesFault.precise {c : BitVec 2} {s t : State} (h : TakesFault c s t) (hs : s.fault = 0) :
    t.fault = 0 ∨ ∃ f : Fault, t = { s with fault := f.code } := by
  rcases h with ⟨-, ht⟩ | ⟨f, -, ht⟩
  · exact .inl (ht.trans hs)
  · exact .inr ⟨f, ht⟩

/-- A guarded update takes the address fault exactly when its range leaves memory (R66, R68). -/
theorem State.guardRange_takesFault {s u t : State} {a n : Nat} (hu : u.fault = s.fault)
    (h : s.guardRange a n (.next u) = .next t) : TakesFault (if 0 < n ∧ 4096 < a + n then 1 else 0) s t := by
  rcases State.guardRange_next h with ⟨rfl, hin⟩ | ⟨rfl, hout⟩
  · exact .inl ⟨if_neg (by omega), hu⟩
  · exact .inr ⟨.addressOutOfRange, if_pos hout, rfl⟩

/-! ### The address conditions of the table are those of the range check -/

theorem faultOf_drw (x y : Reg) (n : Nibble) (s : State) :
    faultOf (.drw x y n) s = if 0 < visibleRows n (originY (s.reg y)) ∧
      4096 < s.i.toNat + visibleRows n (originY (s.reg y)) then 1 else 0 := by
  simp only [faultOf, visibleRows, originY]
  exact if_congr (by omega) rfl rfl

theorem faultOf_ldB (x : Reg) (s : State) : faultOf (.ldB x) s = if 0 < 3 ∧ 4096 < s.i.toNat + 3 then 1 else 0 :=
  if_congr (by omega) rfl rfl

theorem faultOf_ldMemVx (x : Reg) (s : State) :
    faultOf (.ldMemVx x) s = if 0 < x.val + 1 ∧ 4096 < s.i.toNat + (x.val + 1) then 1 else 0 :=
  if_congr (by omega) rfl rfl

theorem faultOf_ldVxMem (x : Reg) (s : State) :
    faultOf (.ldVxMem x) s = if 0 < x.val + 1 ∧ 4096 < s.i.toNat + (x.val + 1) then 1 else 0 :=
  if_congr (by omega) rfl rfl

/-- The execute stage takes the fault the table gives (R241, R244). The named cases have more than one path; every other
meaning is one update that does not touch `FAULT`. -/
theorem exec_takesFault {i : Instr} {s t : State} (h : exec i s = .next t) : TakesFault (faultOf i s) s t := by
  cases i with
  | ret =>
    rcases execRet_next h with ⟨hpos, rfl⟩ | ⟨hempty, rfl⟩
    · exact .inl ⟨if_neg (Nat.ne_of_gt hpos), rfl⟩
    · exact .inr ⟨.stackUnderflow, if_pos hempty, rfl⟩
  | call nnn =>
    rcases execCall_next h with ⟨hlt, rfl⟩ | ⟨hfull, rfl⟩
    · exact .inl ⟨if_neg (Nat.ne_of_lt hlt), rfl⟩
    · exact .inr ⟨.stackOverflow, if_pos hfull, rfl⟩
  | drw x y n => exact faultOf_drw x y n s ▸ State.guardRange_takesFault (s.drawSprite_fault x y n) h
  | ldB x => exact faultOf_ldB x s ▸ State.guardRange_takesFault (s.storeBytes_fault _ _) h
  | ldMemVx x => exact faultOf_ldMemVx x s ▸ State.guardRange_takesFault (s.storeBytes_fault _ _) h
  | ldVxMem x => exact faultOf_ldVxMem x s ▸ State.guardRange_takesFault (s.setRegsUpTo_fault x _) h
  | ldVxK x =>
    rcases execLdVxK_next h with ⟨k, -, rfl⟩ | ⟨-, rfl⟩
    · exact .inl ⟨rfl, rfl⟩
    · exact .inl ⟨rfl, rfl⟩
  | seImm | sneImm | seReg | sneReg | skp | sknp =>
    obtain rfl := Host.Outcome.next.inj h
    exact .inl ⟨rfl, s.skipIf_fault _⟩
  | _ =>
    obtain rfl := Host.Outcome.next.inj h
    exact .inl ⟨rfl, rfl⟩

/-- Settles O12: the execute stage takes a fault precisely, and so does the fetch. -/
theorem faultsArePrecise : Obligations.FaultsArePrecise := by
  unfold Obligations.FaultsArePrecise
  refine ⟨fun i s t hs h => (exec_takesFault h).precise hs, fun s t hs hpc h => ?_⟩
  exact Host.Outcome.next.inj (h.symm.trans (stepCommand_of_fetch_fault hs hpc))

/-- Settles O13: the code taken is the table's, for the execute stage of any state and so for that of a whole
STEP, whose other fault is the fetch fault. -/
theorem faultsAreExactlyTheTable : Obligations.FaultsAreExactlyTheTable := by
  unfold Obligations.FaultsAreExactlyTheTable
  refine ⟨fun i s t hs h => (exec_takesFault h).fault_eq hs, fun s t hs h => ?_⟩
  by_cases hpc : s.pc.toNat + 1 ≥ 4096
  · rw [if_pos hpc]
    obtain rfl := Host.Outcome.next.inj (h.symm.trans (stepCommand_of_fetch_fault hs hpc))
    rfl
  · rw [if_neg hpc]
    have hexec := (stepCommand_of_fetch hs (Nat.lt_of_not_ge hpc)).symm.trans h
    exact (exec_takesFault hexec).fault_eq hs

end Sys2Proof.Machine
end

section
/-! SUPPORT. The timers under TICK and under the instructions (10_state.md R41; 60_exceptions.md R252, R253), SETKEY
(R256), and the output ports (R258 to R260). -/

namespace Sys2Proof.Machine

/-! ### TICK -/

/-- A count down floored at 0, as natural subtraction (R252). -/
theorem toNat_ite_sub_one (b : Byte) : (if b = 0 then 0 else b - 1).toNat = b.toNat - 1 := by
  split
  case isTrue h => rw [h]; rfl
  case isFalse h => bv_omega

theorem State.toNat_tick_dt (s : State) : s.tick.dt.toNat = s.dt.toNat - 1 := toNat_ite_sub_one s.dt

theorem State.toNat_tick_st (s : State) : s.tick.st.toNat = s.st.toNat - 1 := toNat_ite_sub_one s.st

/-- Settles O4, by induction on the number of TICKs. -/
theorem timersDrainOneTickAtATime : Obligations.TimersDrainOneTickAtATime := by
  unfold Obligations.TimersDrainOneTickAtATime
  intro s n
  induction n with
  | zero => exact ⟨rfl, rfl⟩
  | succ n ih =>
    obtain ⟨hdt, hst⟩ := ih
    rw [Function.iterate_succ_apply', State.toNat_tick_dt, State.toNat_tick_st, hdt, hst]
    exact ⟨Nat.sub_sub .., Nat.sub_sub ..⟩

/-! ### The instructions that write a timer -/

/-- From `s` to `t` the timers are written as `i` writes them: each is left alone, but `FX15` sets `DT` to `vx` and
`FX18` sets `ST` to it (R41, R220, R221). -/
def WritesTimersAs (i : Instr) (s t : State) : Prop :=
  (t.dt = s.dt ∨ ∃ x, i = .ldDtVx x ∧ t.dt = s.reg x) ∧ (t.st = s.st ∨ ∃ x, i = .ldStVx x ∧ t.st = s.reg x)

/-- Any instruction may leave both timers alone. -/
theorem WritesTimersAs.of_eq {i : Instr} {s t : State} (hdt : t.dt = s.dt) (hst : t.st = s.st) :
    WritesTimersAs i s t := ⟨.inl hdt, .inl hst⟩

/-- The execute stage writes a timer only in `FX15` and `FX18`. Of the other instructions the named ones have more
than one path. -/
theorem exec_timers {i : Instr} {s t : State} (h : exec i s = .next t) : WritesTimersAs i s t := by
  cases i with
  | ldDtVx x =>
    obtain rfl := Host.Outcome.next.inj h
    exact ⟨.inr ⟨x, rfl, rfl⟩, .inl rfl⟩
  | ldStVx x =>
    obtain rfl := Host.Outcome.next.inj h
    exact ⟨.inl rfl, .inr ⟨x, rfl, rfl⟩⟩
  | ret => rcases execRet_next h with ⟨-, rfl⟩ | ⟨-, rfl⟩ <;> exact .of_eq rfl rfl
  | call nnn => rcases execCall_next h with ⟨-, rfl⟩ | ⟨-, rfl⟩ <;> exact .of_eq rfl rfl
  | ldVxK x => rcases execLdVxK_next h with ⟨k, -, rfl⟩ | ⟨-, rfl⟩ <;> exact .of_eq rfl rfl
  | drw | ldB | ldMemVx | ldVxMem =>
    rcases State.guardRange_next h with ⟨rfl, -⟩ | ⟨rfl, -⟩ <;> exact .of_eq (by simp) (by simp)
  | seImm | sneImm | seReg | sneReg | skp | sknp =>
    obtain rfl := Host.Outcome.next.inj h
    exact .of_eq (s.skipIf_dt _) (s.skipIf_st _)
  | _ =>
    obtain rfl := Host.Outcome.next.inj h
    exact .of_eq rfl rfl

/-- STEP writes the timers as the instruction at `pc` does; halted or at a fetch fault it leaves them alone. -/
theorem stepCommand_timers {s t : State} (h : stepCommand s = .next t) :
    WritesTimersAs (decodeWord (wordOfBytes (s.byteAt s.pc.toNat) (s.byteAt (s.pc.toNat + 1)))) s t := by
  rcases stepCommand_cases s with ⟨-, he⟩ | ⟨-, -, he⟩ | ⟨-, -, he⟩
  · obtain rfl := Host.Outcome.next.inj (he.symm.trans h)
    exact .of_eq rfl rfl
  · obtain rfl := Host.Outcome.next.inj (he.symm.trans h)
    exact .of_eq rfl rfl
  · have hexec := exec_timers (he.symm.trans h)
    exact hexec

/-- Settles O3: TICK by its count down, an instruction and a whole STEP by what they write to the timers. -/
theorem tickDecrementsBothTimersOnly : Obligations.TickDecrementsBothTimersOnly := by
  unfold Obligations.TickDecrementsBothTimersOnly
  refine ⟨fun s => ⟨s.tick, rfl, s.toNat_tick_dt, s.toNat_tick_st, rfl⟩, fun i s t h => ?_,
    fun s t h => stepCommand_timers h⟩
  obtain ⟨hdt, hst⟩ := exec_timers h
  exact ⟨fun hi => hdt.resolve_right fun ⟨x, hx, _⟩ => hi x hx, fun hi => hst.resolve_right fun ⟨x, hx, _⟩ => hi x hx⟩

/-! ### SETKEY -/

/-- The keypad after SETKEY: that key, and the others kept (R256). -/
theorem State.getElem_key_setKey (s : State) (k j : Fin 16) (p : Bool) :
    (s.setKey k p).key[j] = if j = k then p else s.key[j] := by
  simp only [State.setKey_key, Fin.getElem_fin, Vector.getElem_set, Fin.ext_iff, eq_comm]

/-- Settles O5: one entry of the keypad is set. -/
theorem setKeyWritesOneKey : Obligations.SetKeyWritesOneKey := by
  unfold Obligations.SetKeyWritesOneKey
  exact fun s k p => ⟨s.setKey k p, rfl, fun j => s.getElem_key_setKey k j p, rfl⟩

/-! ### The output ports -/

/-- The display port at address `y * 64 + x`, which fits its 11 bits (R258). -/
theorem State.readDisplay_ofNat (s : State) (y : Fin 32) (x : Fin 64) :
    s.readDisplay (BitVec.ofNat 11 (y * 64 + x)) = s.disp.cell y x := by
  have haddr : (BitVec.ofNat 11 (y * 64 + x)).toNat = y * 64 + x := by rw [BitVec.toNat_ofNat]; omega
  exact congrArg₂ s.disp.cell (Fin.ext (by simp only [haddr]; omega)) (Fin.ext (by simp only [haddr]; omega))

/-- Halted is `FAULT` not 0 (R260). -/
theorem State.halted_iff (s : State) : s.halted = true ↔ s.fault ≠ 0 := bne_iff_ne

/-- Settles O6, port by port. -/
theorem portsShowDisplayToneAndFault : Obligations.PortsShowDisplayToneAndFault := by
  unfold Obligations.PortsShowDisplayToneAndFault
  refine fun s y x => ⟨s.readDisplay_ofNat y x, s.tone_iff.trans ?_, s.halted_iff⟩
  bv_omega

end Sys2Proof.Machine
end

section
/-! SUPPORT. The RESET command (70_reset_and_hazards.md R281, R282): what it answers on each side of the largest image, and
the bytes of memory after it. -/

namespace Sys2Proof.Machine

/-! ### What RESET answers -/

theorem State.resetCommand_of_le (s : State) {rom : List Byte} (h : rom.length ≤ 3584) :
    s.resetCommand rom = .ok (s.loadImage rom) := if_pos h

theorem State.resetCommand_of_lt (s : State) {rom : List Byte} (h : 3584 < rom.length) :
    s.resetCommand rom = .error .romTooLarge := if_neg (Nat.not_le.2 h)

/-- RESET with an image of a legal length loads it (R281). -/
theorem runCommand_reset_of_le (s : State) {rom : List Byte} (h : rom.length ≤ 3584) :
    runCommand (.reset rom) s = .next (s.loadImage rom) := by
  simp only [runCommand, s.resetCommand_of_le h]

/-- RESET with a longer image changes nothing (R282). -/
theorem runCommand_reset_of_lt (s : State) {rom : List Byte} (h : 3584 < rom.length) :
    runCommand (.reset rom) s = .next s := by
  simp only [runCommand, s.resetCommand_of_lt h]

/-! ### Memory after RESET -/

/-- Byte `j` of the image lies at `PROG_BASE + j` (R81). -/
theorem State.byteAt_loadImage (s : State) (rom : List Byte) (j : Nat) (hj : j < rom.length) :
    (s.loadImage rom).byteAt (0x200 + j) = rom[j] := Mem.read_ofImage s.font rom 0x200 j hj

/-- Outside the image memory holds what lies under it: the font, and zero elsewhere (R281). -/
theorem State.byteAt_loadImage_of_outside (s : State) (rom : List Byte) {a : Nat}
    (h : a < 0x200 ∨ 0x200 + rom.length ≤ a) : (s.loadImage rom).byteAt a = Mem.background s.font a :=
  Mem.read_ofImage_of_outside s.font rom h

/-- The font lies below the image and is there after RESET (R63). -/
theorem State.byteAt_loadImage_font (s : State) (rom : List Byte) (j : Fin 80) :
    (s.loadImage rom).byteAt (0x050 + j) = s.font[j] := by
  rw [s.byteAt_loadImage_of_outside rom (.inl (by omega))]
  exact Mem.background_font s.font j

/-- Outside both the font and the image every byte is 0 after RESET. -/
theorem State.byteAt_loadImage_eq_zero (s : State) (rom : List Byte) {a : Nat}
    (h : a < 0x050 ∨ (0x0A0 ≤ a ∧ a < 0x200) ∨ 0x200 + rom.length ≤ a) : (s.loadImage rom).byteAt a = 0 := by
  rw [s.byteAt_loadImage_of_outside rom (by omega)]
  exact Mem.background_eq_zero s.font (by omega)

/-- Settles O2: memory by the lemmas above. Every other element is the one of `State.reset`, whatever the image and the
state before, so its value is the one of `resetStateHasTheSpecValues`. -/
theorem resetCommandRewritesEverything : Obligations.ResetCommandRewritesEverything := by
  unfold Obligations.ResetCommandRewritesEverything
  obtain ⟨hv, hi, hpc, hsp, hstk, hdt, hst, htone, hdisp, hkey, hfault, -⟩ := resetStateHasTheSpecValues
  refine fun rom s => ⟨fun hlen => ⟨s.loadImage rom, runCommand_reset_of_le s hlen, s.byteAt_loadImage rom,
    s.byteAt_loadImage_font rom, fun _ _ => s.byteAt_loadImage_eq_zero rom, ?_⟩, fun hlen => ?_⟩
  · exact ⟨hv, hi, hpc, hsp, hstk, hdt, hst, htone, hdisp, hkey, hfault⟩
  · exact ⟨s.resetCommand_of_lt hlen, runCommand_reset_of_lt s hlen⟩

end Sys2Proof.Machine
end
